-- ==== Sys2Proof/Word.lean ====
section
/-! DEFINITION. The widths the spec names: an 8-bit register value, a 16-bit word and the name of a
general register (00_scope.md rules R5, R7). Everything is unsigned (R7). -/

namespace Sys2Proof

/-- One byte: a V register, a timer, a memory cell (XLEN = 8, R5). -/
abbrev Byte := BitVec 8

/-- A 16-bit word: I, PC, a stack slot, an instruction word (R5). -/
abbrev Word := BitVec 16

/-- The name of one of the sixteen general registers V0..VF, and of one of the sixteen keys (R5, R10). -/
abbrev Reg := Fin 16

/-- VF, the register that doubles as the flag (R11). -/
abbrev Reg.VF : Reg := 15

/-- V0, the register that doubles as the offset of Bnnn (R11, R103). -/
abbrev Reg.V0 : Reg := 0

end Sys2Proof
end

