-- ==== Sys2Proof/WellFormed.lean ====
section
/-! DEFINITION. Which terms of Instr stand for an instruction word. Register names, addresses and
immediate bytes are bounded by their types; the one operand the syntax leaves wider than its field is
the row count of Dxyn, a number 0..15 (30_encoding.md rule R62, 44_display.md rule R162). -/

namespace Sys2Proof

/-- The row count of Dxyn fits the 4-bit field `n` (R62 "n (4 bits, 0..15) is a row count"). -/
def Instr.rowCountFits (n : Nat) : Bool := decide (n ≤ 15)

/-- The instruction can be written as a word of R66. -/
def Instr.wellFormed : Instr → Bool
  | .drw _ _ n => Instr.rowCountFits n
  | .cls | .ret | .jp _ | .call _ | .seImm _ _ | .sneImm _ _ | .seReg _ _ | .ldImm _ _ | .addImm _ _
  | .ldReg _ _ | .or _ _ | .and _ _ | .xor _ _ | .addReg _ _ | .sub _ _ | .shr _ _ | .subn _ _
  | .shl _ _ | .sneReg _ _ | .ldI _ | .jpV0 _ | .rnd _ _ | .skp _ | .sknp _ | .ldVxDt _ | .ldVxK _
  | .ldDtVx _ | .ldStVx _ | .addI _ | .ldF _ | .ldB _ | .ldMemVx _ | .ldVxMem _ => true

end Sys2Proof
end

