-- ==== Sys2Proof/Decode.lean ====
section
/-! DEFINITION. Decoding and encoding (30_encoding.md): the fields of an instruction word (R61), the
opcode table (R66) as rows of mask, match and constructor, the decoder over words (R63, R77) and over
bytes (R45, R60), and the encoder, written from the formats of R61. -/

namespace Sys2Proof

/-! ### Fields (R8, R61) -/

/-- A nibble read as a register index (R62 "`x` and `y` (4 bits each) index V directly"). -/
def regOfNibble (b : BitVec 4) : Reg := ⟨b.toNat, b.isLt⟩

/-- A register index as the nibble that encodes it. -/
def nibbleOfReg (r : Reg) : BitVec 4 := BitVec.ofNat 4 r.val

/-- `x = w[11:8]`. -/
def fieldX (w : Word) : Reg := regOfNibble (w.extractLsb' 8 4)

/-- `y = w[7:4]`. -/
def fieldY (w : Word) : Reg := regOfNibble (w.extractLsb' 4 4)

/-- `n = w[3:0]`, a row count. -/
def fieldN (w : Word) : Nat := (w.extractLsb' 0 4).toNat

/-- `kk = w[7:0]`. -/
def fieldKK (w : Word) : Byte := w.extractLsb' 0 8

/-- `nnn = w[11:0]`. -/
def fieldNNN (w : Word) : BitVec 12 := w.extractLsb' 0 12

/-! ### The opcode table (R66) -/

/-- A row of the opcode table: a word `w` is the row's when `w & mask = pattern` (R63), and it then
stands for the instruction `build w`. -/
structure OpcodeRow where
  /-- The fixed bits of the row. -/
  mask : Word
  /-- The values of the fixed bits (the table's `match`). -/
  pattern : Word
  /-- The instruction with the operands that the row's format takes from the word. -/
  build : Word → Instr

/-- `w` is a word of the row (R63). -/
def OpcodeRow.matches (row : OpcodeRow) (w : Word) : Bool := w &&& row.mask == row.pattern

/-- Rows 1 to 9 of R66. -/
def opcodeRowsA : List OpcodeRow :=
  [⟨0xFFFF, 0x00E0, fun _ => .cls⟩,
   ⟨0xFFFF, 0x00EE, fun _ => .ret⟩,
   ⟨0xF000, 0x1000, fun w => .jp (fieldNNN w)⟩,
   ⟨0xF000, 0x2000, fun w => .call (fieldNNN w)⟩,
   ⟨0xF000, 0x3000, fun w => .seImm (fieldX w) (fieldKK w)⟩,
   ⟨0xF000, 0x4000, fun w => .sneImm (fieldX w) (fieldKK w)⟩,
   ⟨0xF00F, 0x5000, fun w => .seReg (fieldX w) (fieldY w)⟩,
   ⟨0xF000, 0x6000, fun w => .ldImm (fieldX w) (fieldKK w)⟩,
   ⟨0xF000, 0x7000, fun w => .addImm (fieldX w) (fieldKK w)⟩]

/-- Rows 10 to 19 of R66. -/
def opcodeRowsB : List OpcodeRow :=
  [⟨0xF00F, 0x8000, fun w => .ldReg (fieldX w) (fieldY w)⟩,
   ⟨0xF00F, 0x8001, fun w => .or (fieldX w) (fieldY w)⟩,
   ⟨0xF00F, 0x8002, fun w => .and (fieldX w) (fieldY w)⟩,
   ⟨0xF00F, 0x8003, fun w => .xor (fieldX w) (fieldY w)⟩,
   ⟨0xF00F, 0x8004, fun w => .addReg (fieldX w) (fieldY w)⟩,
   ⟨0xF00F, 0x8005, fun w => .sub (fieldX w) (fieldY w)⟩,
   ⟨0xF00F, 0x8006, fun w => .shr (fieldX w) (fieldY w)⟩,
   ⟨0xF00F, 0x8007, fun w => .subn (fieldX w) (fieldY w)⟩,
   ⟨0xF00F, 0x800E, fun w => .shl (fieldX w) (fieldY w)⟩,
   ⟨0xF00F, 0x9000, fun w => .sneReg (fieldX w) (fieldY w)⟩]

/-- Rows 20 to 34 of R66. -/
def opcodeRowsC : List OpcodeRow :=
  [⟨0xF000, 0xA000, fun w => .ldI (fieldNNN w)⟩,
   ⟨0xF000, 0xB000, fun w => .jpV0 (fieldNNN w)⟩,
   ⟨0xF000, 0xC000, fun w => .rnd (fieldX w) (fieldKK w)⟩,
   ⟨0xF000, 0xD000, fun w => .drw (fieldX w) (fieldY w) (fieldN w)⟩,
   ⟨0xF0FF, 0xE09E, fun w => .skp (fieldX w)⟩,
   ⟨0xF0FF, 0xE0A1, fun w => .sknp (fieldX w)⟩,
   ⟨0xF0FF, 0xF007, fun w => .ldVxDt (fieldX w)⟩,
   ⟨0xF0FF, 0xF00A, fun w => .ldVxK (fieldX w)⟩,
   ⟨0xF0FF, 0xF015, fun w => .ldDtVx (fieldX w)⟩,
   ⟨0xF0FF, 0xF018, fun w => .ldStVx (fieldX w)⟩,
   ⟨0xF0FF, 0xF01E, fun w => .addI (fieldX w)⟩,
   ⟨0xF0FF, 0xF029, fun w => .ldF (fieldX w)⟩,
   ⟨0xF0FF, 0xF033, fun w => .ldB (fieldX w)⟩,
   ⟨0xF0FF, 0xF055, fun w => .ldMemVx (fieldX w)⟩,
   ⟨0xF0FF, 0xF065, fun w => .ldVxMem (fieldX w)⟩]

/-- The complete opcode table, 34 rows in the order of R66. -/
def opcodeTable : List OpcodeRow := opcodeRowsA ++ opcodeRowsB ++ opcodeRowsC

/-! ### The decoder -/

/-- Decoding of one instruction word: a pure function of the word (R63). `none` is the verdict
"unmatched", whose behaviour R71 defines; it is no refusal (R77). -/
def decodeWord (w : Word) : Option Instr :=
  match opcodeTable.find? (fun row => row.matches w) with
  | some row => some (row.build w)
  | none => none

/-- The word formed big-endian from two consecutive bytes: the byte at the lower address is bits 15:8
(R42, R45). -/
def wordOfBytes (high low : Byte) : Word := high ++ low

/-- The two bytes of a word as they lie in memory, lower address first (R45). -/
def bytesOfWord (w : Word) : List Byte := [w.extractLsb' 8 8, w.extractLsb' 0 8]

/-- What decoding a string of bytes gives, each way it can end under a name of its own. -/
inductive Decoded where
  /-- The first two bytes are a word of R66. -/
  | instr (i : Instr) (rest : List Byte)
  /-- The first two bytes are a word that no row matches (R70): a no-op with a diagnostic. -/
  | unmatched (w : Word) (rest : List Byte)
  /-- Fewer than two bytes: not an instruction word (R60). -/
  | tooShort (bytes : List Byte)
  deriving DecidableEq, Repr

/-- Decoding of any bytes: every instruction is one 16-bit word (R60). -/
def decodeBytes : List Byte → Decoded
  | high :: low :: rest =>
    match decodeWord (wordOfBytes high low) with
    | some i => .instr i rest
    | none => .unmatched (wordOfBytes high low) rest
  | bytes => .tooShort bytes

/-- A row of spec/opcode_table.json as the decoder reads it: `w` numbered with bit 0 the least significant
bit of the (one) word, `nbits` bits of it given by the table, every higher bit 0. -/
def tableWord (nbits w : Nat) : Word := BitVec.ofNat 16 (w % 2 ^ nbits)

/-- The instruction the decoder reads from a table word laid out in memory order. -/
def decodeTableWord (nbits w : Nat) : Option Instr :=
  match decodeBytes (bytesOfWord (tableWord nbits w)) with
  | .instr i _ => some i
  | .unmatched _ _ => none
  | .tooShort _ => none

/-! ### The encoder (formats of R61, constants of R66) -/

/-- Format NNN: `c nnn`. -/
def wordNNN (c : BitVec 4) (nnn : BitVec 12) : Word := c ++ nnn

/-- Format XKK: `c x kk`. -/
def wordXKK (c : BitVec 4) (x : Reg) (kk : Byte) : Word := c ++ nibbleOfReg x ++ kk

/-- Formats XYC and XYN: `c x y c'`, where the last nibble is a constant or the row count. -/
def wordXYC (c : BitVec 4) (x y : Reg) (c' : BitVec 4) : Word :=
  c ++ nibbleOfReg x ++ nibbleOfReg y ++ c'

/-- Format XCC: `c x c c`, the last two constants written as one byte. -/
def wordXCC (c : BitVec 4) (x : Reg) (cc : Byte) : Word := c ++ nibbleOfReg x ++ cc

/-- The word of an instruction (R66). For a row count above 15, which no word holds, its low nibble is
encoded: such a term is not well-formed. -/
def encode : Instr → Word
  | .cls => 0x00E0
  | .ret => 0x00EE
  | .jp nnn => wordNNN 0x1 nnn
  | .call nnn => wordNNN 0x2 nnn
  | .seImm x kk => wordXKK 0x3 x kk
  | .sneImm x kk => wordXKK 0x4 x kk
  | .seReg x y => wordXYC 0x5 x y 0x0
  | .ldImm x kk => wordXKK 0x6 x kk
  | .addImm x kk => wordXKK 0x7 x kk
  | .ldReg x y => wordXYC 0x8 x y 0x0
  | .or x y => wordXYC 0x8 x y 0x1
  | .and x y => wordXYC 0x8 x y 0x2
  | .xor x y => wordXYC 0x8 x y 0x3
  | .addReg x y => wordXYC 0x8 x y 0x4
  | .sub x y => wordXYC 0x8 x y 0x5
  | .shr x y => wordXYC 0x8 x y 0x6
  | .subn x y => wordXYC 0x8 x y 0x7
  | .shl x y => wordXYC 0x8 x y 0xE
  | .sneReg x y => wordXYC 0x9 x y 0x0
  | .ldI nnn => wordNNN 0xA nnn
  | .jpV0 nnn => wordNNN 0xB nnn
  | .rnd x kk => wordXKK 0xC x kk
  | .drw x y n => wordXYC 0xD x y (BitVec.ofNat 4 n)
  | .skp x => wordXCC 0xE x 0x9E
  | .sknp x => wordXCC 0xE x 0xA1
  | .ldVxDt x => wordXCC 0xF x 0x07
  | .ldVxK x => wordXCC 0xF x 0x0A
  | .ldDtVx x => wordXCC 0xF x 0x15
  | .ldStVx x => wordXCC 0xF x 0x18
  | .addI x => wordXCC 0xF x 0x1E
  | .ldF x => wordXCC 0xF x 0x29
  | .ldB x => wordXCC 0xF x 0x33
  | .ldMemVx x => wordXCC 0xF x 0x55
  | .ldVxMem x => wordXCC 0xF x 0x65

/-- The bytes of an instruction as they lie in memory (R45, R60). -/
def encodeBytes (i : Instr) : List Byte := bytesOfWord (encode i)

end Sys2Proof
end

