-- ==== Sys2Proof/Config.lean ====
section
/-! DEFINITION. The fixed parameters of the machine (00_scope.md rule R5) and its open ones (R6).
The open ones have no body: nothing in Lean can evaluate them, so a claim is true whatever they are
(assumption log 1, 2, 3). -/

namespace Sys2Proof

namespace Config

/-- MEM_SIZE of R5: main memory is addresses 0x000 to 0xFFF. -/
abbrev memSize : Nat := 4096

/-- FONT_LEN of R5: the font fills 0x000 to 0x04F. -/
abbrev fontLen : Nat := 80

/-- PROG_BASE of R5: where the program image is loaded, and PC after reset. -/
abbrev progBase : Nat := 512

/-- PROG_MAX of R5: the longest image that fits. -/
abbrev progMax : Nat := 3584

/-- STACK_DEPTH of R5. -/
abbrev stackDepth : Nat := 16

/-- FONT, the 80 bytes that Reset copies to 0x000..0x04F: an open parameter (R6, R222, N3).
A free value: log 3. -/
opaque font : Vector Byte 80

/-- The key snapshot K the host presents at tick number `n` when no input is lined up for it: any value
(R6, R90). A free value: log 1. -/
opaque hostKeys : Nat → Vector Bool 16

/-- The random byte `rnd` of tick number `n` when no input is lined up for it: any value, under no law
(R6, R131). A free value: log 1. -/
opaque randomByte : Nat → Byte

/-- Which of several pressed keys the gate prefers at tick number `n` when no input is lined up for it:
KEY_PICK left open (R6, R82, U9). A free value: log 2. -/
opaque keyChoice : Nat → Reg

/-- The glyphs 0 to 7 of `recommendedFont`. -/
def recommendedGlyphsLow : List Byte :=
  [0xF0, 0x90, 0x90, 0x90, 0xF0, 0x20, 0x60, 0x20, 0x20, 0x70,
   0xF0, 0x10, 0xF0, 0x80, 0xF0, 0xF0, 0x10, 0xF0, 0x10, 0xF0,
   0x90, 0x90, 0xF0, 0x10, 0x10, 0xF0, 0x80, 0xF0, 0x10, 0xF0,
   0xF0, 0x80, 0xF0, 0x90, 0xF0, 0xF0, 0x10, 0x20, 0x40, 0x40]

/-- The glyphs 8 to F of `recommendedFont`. -/
def recommendedGlyphsHigh : List Byte :=
  [0xF0, 0x90, 0xF0, 0x90, 0xF0, 0xF0, 0x90, 0xF0, 0x10, 0xF0,
   0xF0, 0x90, 0xF0, 0x90, 0x90, 0xE0, 0x90, 0xE0, 0x90, 0xE0,
   0xF0, 0x80, 0x80, 0x80, 0xF0, 0xE0, 0x90, 0x90, 0x90, 0xE0,
   0xF0, 0x80, 0xF0, 0x80, 0xF0, 0xF0, 0x80, 0xF0, 0x80, 0x80]

/-- PRESUMED (log 3): the glyph table that R222 recommends for FONT, marked there as general knowledge.
No definition of the machine uses it: it is a value a test or a claim may name as its premise. -/
def recommendedFont : Vector Byte 80 :=
  ⟨(recommendedGlyphsLow ++ recommendedGlyphsHigh).toArray, rfl⟩

end Config

/-- The inputs of one Tick (R80, R205): the host's key snapshot K, the random byte rnd, and the key the
gate prefers when several are pressed (the parameter KEY_PICK of R82, made an input of the tick: log 2). -/
structure TickInput where
  /-- K, the sixteen key flags of the snapshot. -/
  keys : Vector Bool 16
  /-- rnd, the random draw that Cxkk uses. -/
  rnd : Byte
  /-- The key reported by a resume tick if it is pressed; the lowest pressed key otherwise. -/
  pick : Reg
  deriving DecidableEq, Repr

end Sys2Proof
end

