-- ==== Sys2Proof/Machine/State.lean ====
section
/-! DEFINITION. The state of the machine as plain data: every field the spec gives it (10_state.md rules
R10 to R27), and the block's ports (60_exceptions.md rules R203, R205) gathered in one sub-record of the
model's own. INVENTORY.md's '## State' lists them one by one. -/

namespace Sys2Proof.Machine

/-- The fault causes of R192, codes 1 to 6. A fault of this hardware is a value of its `fault` register
and a NEXT state (R193): no step of the model ends in the outcome `fault` (log 6), so recording one is
the machine's own behaviour and stops nothing. -/
inductive Fault where
  /-- Code 1. Raised by the fetch of an executing tick with PC ≥ 0xFFF. Safe: a next state of the spec's own (log 6). -/
  | fetchBounds
  /-- Code 2. Raised by Dxyn and Fx65 when a byte to be read lies above 0xFFF. Safe: a next state (log 6). -/
  | loadBounds
  /-- Code 3. Raised by Fx33 and Fx55 when a byte to be written lies above 0xFFF. Safe: a next state (log 6). -/
  | storeBounds
  /-- Code 4. Raised by 2nnn with all 16 slots occupied. Safe: a next state (log 6). -/
  | stackOverflow
  /-- Code 5. Raised by 00EE with no slot occupied. Safe: a next state (log 6). -/
  | stackUnderflow
  /-- Code 6. Raised by Ex9E and ExA1 with Vx > 15. Safe: a next state (log 6). -/
  | keyIndex
  deriving DecidableEq, Repr

/-- The refusals of the model: none is used, for every instruction of the table has its meaning. -/
inductive Refusal where
  /-- An arm of exec not modelled yet, by its mnemonic. Raised by no arm. Safe. -/
  | notModelled (mnemonic : String)
  deriving DecidableEq, Repr

/-- Main memory, addresses 0x000 to 0xFFF (R22, R40): the listed cells, strictly rising by address, and
the font table that an unlisted address of 0x000..0x04F still reads (log 3, log 14). -/
structure Memory where
  /-- FONT, the table Reset copied to 0x000..0x04F (R220). The model's own field: no step changes it. -/
  font : Vector Byte 80
  /-- The bytes that differ from what the address read right after Reset. -/
  cells : List Host.Cell
  deriving DecidableEq, Repr

/-- The display: 32 rows of 64 cells, `true` is "on" (R23). -/
abbrev Display := Vector (Vector Bool 64) 32

/-- The `diag` output of a tick that fetched an unmatched word: the word and its address (R72). -/
structure Diag where
  /-- The address the word was fetched from. -/
  addr : Word
  /-- The unmatched word. -/
  word : Word
  deriving DecidableEq, Repr

/-- The ports of the block (R202, R203, R205), the model's own fields: what the host has lined up for the
coming ticks, the latched `rnd`, the two per-tick outputs and the lifecycle of Load (log 1, 4, 5, 20). -/
structure Port where
  /-- Tick inputs lined up by the host, oldest first; when there is none the inputs are free values (log 1). -/
  inputs : List TickInput
  /-- The number of ticks taken: it numbers the free inputs. -/
  ticks : Nat
  /-- `rnd` of the tick in progress (R26, R131). -/
  rnd : Byte
  /-- The `tone` output of the last tick (R88). -/
  tone : Bool
  /-- The `diag` output of the last tick, absent when it is false (R72). -/
  diag : Option Diag
  /-- A Load is still legal: no Tick and no Load since the last Reset (R223). -/
  loadOpen : Bool
  deriving DecidableEq, Repr

/-- The state of the machine (10_state.md section 1). -/
structure State where
  /-- V0..VF (R10). -/
  v : Vector Byte 16
  /-- I, the index register (R16). -/
  i : Word
  /-- PC (R13). -/
  pc : Word
  /-- The call stack's sixteen slots (R17). -/
  stack : Vector Word 16
  /-- SP, the number of occupied slots, 0..16 (R17, log 21). -/
  sp : Fin 17
  /-- DT, the delay timer (R18). -/
  dt : Byte
  /-- ST, the sound timer (R18). -/
  st : Byte
  /-- Main memory (R22). -/
  mem : Memory
  /-- The display buffer (R23). -/
  disp : Display
  /-- The key flags as the last live tick latched them (R24). -/
  keys : Vector Bool 16
  /-- waitingForKey (R19). -/
  waiting : Bool
  /-- keyRegister (R19). -/
  keyreg : Reg
  /-- The fault register: `none` is code 0 (R20, R192). -/
  fault : Option Fault
  /-- The block's ports. -/
  port : Port
  deriving DecidableEq, Repr

/-- Every cell of the display off (R23, R160). -/
def Display.blank : Display := Vector.replicate 32 (Vector.replicate 64 false)

/-- The ports right after Reset (log 1, 4, 5, 20). -/
def Port.reset : Port :=
  { inputs := [], ticks := 0, rnd := 0, tone := false, diag := none, loadOpen := true }

/-- Reset(FONT) of R220: the font in memory, PC at 0x200, everything else zero. -/
def State.resetWith (font : Vector Byte 80) : State :=
  { v := Vector.replicate 16 0
    i := 0
    pc := 0x200
    stack := Vector.replicate 16 0
    sp := 0
    dt := 0
    st := 0
    mem := { font := font, cells := [] }
    disp := Display.blank
    keys := Vector.replicate 16 false
    waiting := false
    keyreg := 0
    fault := none
    port := Port.reset }

/-- The machine right after reset, for whatever FONT is (R27, R220). -/
def State.reset : State := State.resetWith Config.font

end Sys2Proof.Machine
end

