-- ==== Sys2Proof/Machine/Ops.lean ====
section
/-! DEFINITION. The named operations over registers, memory, stack, display and timers that the meanings
share, and the one operation that takes a fault (60_exceptions.md rule R193). -/

namespace Sys2Proof.Machine

/-- What a meaning, a tick and a step answer. -/
abbrev Result := Host.Outcome State Fault Refusal

/-! ### General registers (R10) -/

/-- `V[x]`. -/
def State.reg (s : State) (x : Reg) : Byte := s.v[x.val]

/-- `V[x] <- b`. All sixteen registers are ordinary storage, VF included (R10). -/
def State.setReg (s : State) (x : Reg) (b : Byte) : State := { s with v := s.v.set x.val b }

/-! ### Main memory (R22, R40 to R45) -/

/-- What an address reads as when no cell lists it: its contents right after Reset (R27, R220). -/
def Memory.unlisted (m : Memory) (a : Nat) : Byte := if h : a < 80 then m.font[a] else 0

/-- The byte a list of cells gives an address. -/
def cellAt : List Host.Cell → Nat → Option Byte
  | [], _ => none
  | (k, b) :: cells, a => if k = a then some b else cellAt cells a

/-- The byte at an address of main memory. -/
def Memory.read (m : Memory) (a : Nat) : Byte :=
  match cellAt m.cells a with
  | some b => b
  | none => m.unlisted a

/-- The list without the cells of address `a`. -/
def dropCell (a : Nat) (cells : List Host.Cell) : List Host.Cell := cells.filter fun c => c.1 != a

/-- The list with the cell `(a, b)` put before the first cell of a higher address. -/
def insertCell (a : Nat) (b : Byte) : List Host.Cell → List Host.Cell
  | [] => [(a, b)]
  | (k, c) :: cells => if a < k then (a, b) :: (k, c) :: cells else (k, c) :: insertCell a b cells

/-- The store of a byte: `mem[a] <- b` (R44 after its bounds check). A byte equal to what the address reads
as when unlisted is not listed (log 14). -/
def Memory.write (m : Memory) (a : Nat) (b : Byte) : Memory :=
  { m with
    cells := if b = m.unlisted a then dropCell a m.cells else insertCell a b (dropCell a m.cells) }

/-- The canonical form: addresses strictly rising and below 4096, no cell equal to what its address
reads as when unlisted (log 14). -/
abbrev Memory.wf (m : Memory) : Prop :=
  m.cells.Pairwise (fun c d => c.1 < d.1) ∧ ∀ c ∈ m.cells, c.1 < Config.memSize ∧ c.2 ≠ m.unlisted c.1

/-- `n` consecutive bytes from address `a`, lowest first. -/
def Memory.readBytes (m : Memory) (a : Nat) : Nat → List Byte
  | 0 => []
  | n + 1 => m.read a :: m.readBytes (a + 1) n

/-- Consecutive stores from address `a` upward. -/
def Memory.writeBytes (m : Memory) (a : Nat) : List Byte → Memory
  | [] => m
  | b :: bytes => (m.write a b).writeBytes (a + 1) bytes

/-- The highest of `n` bytes from `base` lies above 0xFFF: the condition of every bounds fault of R55.
No byte is accessed when `n = 0`. The sum is over the integers. -/
def outOfRange (base n : Nat) : Bool := decide (n ≥ 1) && decide (base + n - 1 > 0xFFF)

/-- `Fetch(a)` of R42: the big-endian word at `a`, or nothing when its second byte lies above 0xFFF. -/
def Memory.fetch (m : Memory) (a : Word) : Option Word :=
  if a.toNat + 1 > 0xFFF then none
  else some (wordOfBytes (m.read a.toNat) (m.read (a.toNat + 1)))

/-! ### Faults (R193) -/

/-- The code of the `fault` register (R192). -/
def faultCode : Option Fault → Nat
  | none => 0
  | some .fetchBounds => 1
  | some .loadBounds => 2
  | some .storeBounds => 3
  | some .stackOverflow => 4
  | some .stackUnderflow => 5
  | some .keyIndex => 6

/-- Taking a fault: `fault` takes the cause and PC is the address `a` of the faulting instruction; nothing
else changes (R193, R195). `keys` already holds the tick's snapshot. -/
def takeFault (a : Word) (f : Fault) (s : State) : State := { s with pc := a, fault := some f }

/-- `raise f` inside the dispatch of an instruction, where PC is already a + 2 (R84, R85) and nothing
else has changed since the tick's start, every check standing before the first effect (R44, log 7). -/
def raise (f : Fault) (s : State) : State := takeFault (s.pc - 2) f s

/-- An instruction's single check (R194): raise `f` from `s` if it fails, else go to `t`. -/
def guarded (bad : Bool) (f : Fault) (s t : State) : State := if bad then raise f s else t

/-! ### Program counter and call stack (R13, R17, R104) -/

/-- The unconditional advance of PC before dispatch (R84 step 3), mod 65536 (log 11). -/
def advance (s : State) : State := { s with pc := s.pc + 2 }

/-- "Skip next instruction" of R104. -/
def skipIf (c : Bool) (s : State) : State := { s with pc := if c then s.pc + 2 else s.pc }

/-- `PC <- target`. -/
def jumpTo (target : Word) (s : State) : State := { s with pc := target }

/-- The push of R102: `stack[SP] <- PC; SP <- SP + 1`. -/
def pushPc (s : State) (free : s.sp.val < 16) : State :=
  { s with stack := s.stack.set s.sp.val s.pc, sp := ⟨s.sp.val + 1, by omega⟩ }

/-- The pop of R101: `SP <- SP − 1; PC <- stack[SP]`; the slot keeps its contents. -/
def popPc (s : State) (occupied : 0 < s.sp.val) : State :=
  { s with pc := s.stack[s.sp.val - 1], sp := ⟨s.sp.val - 1, by omega⟩ }

/-! ### Timers (R87) -/

/-- One decrement of a timer: a timer at 0 stays at 0. -/
def countDown (b : Byte) : Byte := if b = 0 then 0 else b - 1

/-- The timer step: both timers count down, and `tone` tells whether ST was above 0 before (R87, R88). -/
def timerStep (s : State) : State :=
  { s with
    dt := countDown s.dt
    st := countDown s.st
    port := { s.port with tone := decide (s.st ≠ 0) } }

/-! ### The display (R23, R161) -/

/-- `disp[r][c]`. -/
def Display.cell (d : Display) (r : Fin 32) (c : Fin 64) : Bool := d[r.val][c.val]

/-- `disp[r][c] <- on`. -/
def Display.setCell (d : Display) (r : Fin 32) (c : Fin 64) (on : Bool) : Display :=
  d.set r.val (d[r.val].set c.val on)

/-- What a draw works on: the display and whether some cell has gone from on to off so far. -/
structure Canvas where
  /-- The display buffer. -/
  disp : Display
  /-- A cell went from on to off. -/
  hit : Bool
  deriving DecidableEq, Repr

/-- A set sprite bit at its target cell (R161): an "on" cell is turned off and hits, an "off" one is
turned on. -/
def Canvas.flip (k : Canvas) (r : Fin 32) (c : Fin 64) : Canvas :=
  if k.disp.cell r c then { disp := k.disp.setCell r c false, hit := true }
  else { disp := k.disp.setCell r c true, hit := k.hit }

/-- The target column of column offset `col` (R161): `(px + col) mod 64`. -/
def targetCol (px col : Nat) : Fin 64 := ⟨(px + col) % 64, by omega⟩

/-- The target row of row offset `row` (R161): `(py + row) mod 32`. -/
def targetRow (py row : Nat) : Fin 32 := ⟨(py + row) % 32, by omega⟩

/-- Column offset `col` of a row byte is bit 7 − col (R162). -/
def spriteBit (b : Byte) (col : Nat) : Bool := b.getLsbD (7 - col)

/-- One row byte drawn at row `r`, columns `px` to `px + 7`, each wrapping (R161). The first argument
counts the columns still to be drawn. -/
def Canvas.drawColumns (px : Nat) (r : Fin 32) (b : Byte) : Nat → Canvas → Canvas
  | 0, k => k
  | n + 1, k =>
    let done := Canvas.drawColumns px r b n k
    if spriteBit b n then done.flip r (targetCol px n) else done

/-- The row bytes of a sprite drawn from row `py` downward, each row wrapping (R161). -/
def Canvas.drawRows (px py : Nat) : List Byte → Canvas → Canvas
  | [], k => k
  | b :: bytes, k => Canvas.drawRows px (py + 1) bytes (k.drawColumns px (targetRow py 0) b 8)

end Sys2Proof.Machine
end

