-- ==== Sys2Proof/Machine/Operands.lean ====
section
/-! DEFINITION. The operand forms of the instruction set (30_encoding.md rule R62, 43_index_memory.md
rule R139): registers, zero-extended immediates, and the only addressing mode, I plus a small offset. -/

namespace Sys2Proof.Machine

/-- `zext_16(nnn)` (R62). -/
def addressOf (nnn : BitVec 12) : Word := nnn.setWidth 16

/-- `zext_16(V[x])` (R62). -/
def wordOfReg (s : State) (x : Reg) : Word := (s.reg x).setWidth 16

/-- The base of every data access: I as a number; byte `k` of an access is at I + k over the integers
(R139). -/
def indexBase (s : State) : Nat := s.i.toNat

/-- The number of registers, and so of bytes, that Fx55 and Fx65 move: V0..Vx inclusive (R144, R145). -/
def blockLength (x : Reg) : Nat := x.val + 1

/-- The values of V0..Vx, V0 first (R144). -/
def blockOfRegs (s : State) (x : Reg) : List Byte := s.v.toList.take (blockLength x)

/-- The register file with V0..Vx taken from memory at I.., the rest as before (R145). -/
def regsFromMemory (s : State) (x : Reg) : Vector Byte 16 :=
  Vector.ofFn fun r : Reg => if r.val ≤ x.val then s.mem.read (indexBase s + r.val) else s.reg r

/-- The hundreds, tens and ones of a byte, in this order (R143). -/
def bcdDigits (b : Byte) : List Byte :=
  [BitVec.ofNat 8 (b.toNat / 100), BitVec.ofNat 8 (b.toNat / 10 % 10), BitVec.ofNat 8 (b.toNat % 10)]

/-- The `n` row bytes of the sprite at I (R162). -/
def spriteRows (s : State) (n : Nat) : List Byte := s.mem.readBytes (indexBase s) n

/-- The key flag a register value selects: meaningful for a value of at most 15, which R170 and R171
check first. -/
def keyFlag (s : State) (b : Byte) : Bool := s.keys[b.toNat % 16]

/-- The value is no key index: the KeyIndex condition of R170 and R171. -/
def notAKey (b : Byte) : Bool := decide (b.toNat > 15)

end Sys2Proof.Machine
end

