-- ==== Sys2Proof/Machine/ControlFlow.lean ====
section
/-! DEFINITION. Control transfer (41_control_flow.md): RET, JP, CALL, JP V0 and the register skips.
Each meaning runs as step 4 of an executing tick, with PC already at a + 2 (R100). -/

namespace Sys2Proof.Machine

/-- 00EE RET (R101). -/
def execRet (s : State) : Result :=
  .next (if occupied : 0 < s.sp.val then popPc s occupied else raise .stackUnderflow s)

/-- 1nnn JP nnn (R105). -/
def execJp (nnn : BitVec 12) (s : State) : Result := .next (jumpTo (addressOf nnn) s)

/-- 2nnn CALL nnn (R102). -/
def execCall (nnn : BitVec 12) (s : State) : Result :=
  .next (if free : s.sp.val < 16 then jumpTo (addressOf nnn) (pushPc s free)
         else raise .stackOverflow s)

/-- Bnnn JP V0, nnn (R103): the sum is not cut to 12 bits. -/
def execJpV0 (nnn : BitVec 12) (s : State) : Result :=
  .next (jumpTo (addressOf nnn + wordOfReg s Reg.V0) s)

/-- 3xkk SE Vx, kk (R106). -/
def execSeImm (x : Reg) (kk : Byte) (s : State) : Result := .next (skipIf (s.reg x == kk) s)

/-- 4xkk SNE Vx, kk (R107). -/
def execSneImm (x : Reg) (kk : Byte) (s : State) : Result := .next (skipIf (s.reg x != kk) s)

/-- 5xy0 SE Vx, Vy (R108). -/
def execSeReg (x y : Reg) (s : State) : Result := .next (skipIf (s.reg x == s.reg y) s)

/-- 9xy0 SNE Vx, Vy (R109). -/
def execSneReg (x y : Reg) (s : State) : Result := .next (skipIf (s.reg x != s.reg y) s)

end Sys2Proof.Machine
end

