-- ==== Sys2Proof/Machine/Flags.lean ====
section
/-! DEFINITION. Every value the spec lets an instruction write into VF as a flag (10_state.md rule R15,
42_load_alu.md rule R132): a flag is the full byte 0x00 or 0x01. -/

namespace Sys2Proof.Machine

/-- A flag as the whole byte VF receives ("VF is always fully overwritten", R11, R132). -/
def flagByte (b : Bool) : Byte := if b then 1 else 0

/-- The flag of 8xy4: 1 iff the sum over the integers exceeds 255 (R126, R132). -/
def carryFlag (a b : Byte) : Byte := flagByte (decide (a.toNat + b.toNat > 255))

/-- The flag of the subtraction a − b in 8xy5 and 8xy7: 1 iff there is no borrow, a ≥ b
(R127, R129, R132; the equal case is decision D13: log 10). -/
def noBorrowFlag (a b : Byte) : Byte := flagByte (decide (a.toNat ≥ b.toNat))

/-- The flag of 8xy6: bit 0 of the operand, the bit shifted out (R128). -/
def shiftedOutRight (a : Byte) : Byte := a &&& 1

/-- The flag of 8xyE: bit 7 of the operand, the bit shifted out (R130). -/
def shiftedOutLeft (a : Byte) : Byte := (a >>> 7) &&& 1

/-- The flag of Dxyn: 1 iff some cell went from on to off (R161). -/
def collisionFlag (hit : Bool) : Byte := flagByte hit

end Sys2Proof.Machine
end

