-- ==== Sys2Proof/Machine/Display.lean ====
section
/-! DEFINITION. Display clear and the XOR sprite compositor (44_display.md). -/

namespace Sys2Proof.Machine

/-- 00E0 CLS (R160). -/
def execCls (s : State) : Result := .next { s with disp := Display.blank }

/-- The draw of R161 on the display of `s`: coordinates are the values of Vx and Vy at entry (log 12),
no hit before the first cell. -/
def drawSprite (x y : Reg) (n : Nat) (s : State) : Canvas :=
  Canvas.drawRows (s.reg x).toNat (s.reg y).toNat (spriteRows s n) { disp := s.disp, hit := false }

/-- Dxyn DRW Vx, Vy, n (R161): VF is always written, also when n = 0. -/
def execDrw (x y : Reg) (n : Nat) (s : State) : Result :=
  .next (guarded (outOfRange (indexBase s) n) .loadBounds s
    ({ s with disp := (drawSprite x y n s).disp }.setReg Reg.VF
      (collisionFlag (drawSprite x y n s).hit)))

end Sys2Proof.Machine
end

