-- ==== Sys2Proof/Machine/IndexMemory.lean ====
section
/-! DEFINITION. The index register, font address, BCD, block store and load (43_index_memory.md). No
memory instruction changes I (R146), and every bound is checked before the first effect (R44, R55). -/

namespace Sys2Proof.Machine

/-- Annn LD I, nnn (R140). -/
def execLdI (nnn : BitVec 12) (s : State) : Result := .next { s with i := addressOf nnn }

/-- Fx1E ADD I, Vx (R141): mod 65536, no flag. -/
def execAddI (x : Reg) (s : State) : Result := .next { s with i := s.i + wordOfReg s x }

/-- Fx29 LD F, Vx (R142): Vx is not cut to its low nibble. -/
def execLdF (x : Reg) (s : State) : Result := .next { s with i := wordOfReg s x * 5 }

/-- Fx33 LD B, Vx (R143). -/
def execLdB (x : Reg) (s : State) : Result :=
  .next (guarded (outOfRange (indexBase s) 3) .storeBounds s
    { s with mem := s.mem.writeBytes (indexBase s) (bcdDigits (s.reg x)) })

/-- Fx55 LD [I], Vx (R144). -/
def execLdMemVx (x : Reg) (s : State) : Result :=
  .next (guarded (outOfRange (indexBase s) (blockLength x)) .storeBounds s
    { s with mem := s.mem.writeBytes (indexBase s) (blockOfRegs s x) })

/-- Fx65 LD Vx, [I] (R145). -/
def execLdVxMem (x : Reg) (s : State) : Result :=
  .next (guarded (outOfRange (indexBase s) (blockLength x)) .loadBounds s
    { s with v := regsFromMemory s x })

end Sys2Proof.Machine
end

