-- ==== Sys2Proof/Machine/InputTimers.lean ====
section
/-! DEFINITION. Key skips, key wait and timer access (45_input_timers.md). The timer step of the same tick
follows each of them (R87). -/

namespace Sys2Proof.Machine

/-- Ex9E SKP Vx (R170). -/
def execSkp (x : Reg) (s : State) : Result :=
  .next (guarded (notAKey (s.reg x)) .keyIndex s (skipIf (keyFlag s (s.reg x)) s))

/-- ExA1 SKNP Vx (R171). -/
def execSknp (x : Reg) (s : State) : Result :=
  .next (guarded (notAKey (s.reg x)) .keyIndex s (skipIf (!keyFlag s (s.reg x)) s))

/-- Fx07 LD Vx, DT (R172). -/
def execLdVxDt (x : Reg) (s : State) : Result := .next (s.setReg x s.dt)

/-- Fx15 LD DT, Vx (R173). -/
def execLdDtVx (x : Reg) (s : State) : Result := .next { s with dt := s.reg x }

/-- Fx18 LD ST, Vx (R174). -/
def execLdStVx (x : Reg) (s : State) : Result := .next { s with st := s.reg x }

/-- Fx0A LD Vx, K (R175): it only enters the wait-for-key state; the register is written by the gate's
resume tick (R82). -/
def execLdVxK (x : Reg) (s : State) : Result := .next { s with waiting := true, keyreg := x }

end Sys2Proof.Machine
end

