-- ==== Sys2Proof/Machine/LoadAlu.lean ====
section
/-! DEFINITION. Register load, arithmetic, logic, shift and random (42_load_alu.md). The assignments of a
row are sequential, in the row's order (R133, log 8): the flag second in 8xy4, 8xy5, 8xy7, first in
8xy6, 8xyE. -/

namespace Sys2Proof.Machine

/-- 6xkk LD Vx, kk (R120). -/
def execLdImm (x : Reg) (kk : Byte) (s : State) : Result := .next (s.setReg x kk)

/-- 7xkk ADD Vx, kk (R121): no flag. -/
def execAddImm (x : Reg) (kk : Byte) (s : State) : Result := .next (s.setReg x (s.reg x + kk))

/-- 8xy0 LD Vx, Vy (R122). -/
def execLdReg (x y : Reg) (s : State) : Result := .next (s.setReg x (s.reg y))

/-- 8xy1 OR Vx, Vy (R123): VF is not reset. -/
def execOr (x y : Reg) (s : State) : Result := .next (s.setReg x (s.reg x ||| s.reg y))

/-- 8xy2 AND Vx, Vy (R124). -/
def execAnd (x y : Reg) (s : State) : Result := .next (s.setReg x (s.reg x &&& s.reg y))

/-- 8xy3 XOR Vx, Vy (R125). -/
def execXor (x y : Reg) (s : State) : Result := .next (s.setReg x (s.reg x ^^^ s.reg y))

/-- 8xy4 ADD Vx, Vy (R126). -/
def execAddReg (x y : Reg) (s : State) : Result :=
  .next ((s.setReg x (s.reg x + s.reg y)).setReg Reg.VF (carryFlag (s.reg x) (s.reg y)))

/-- 8xy5 SUB Vx, Vy (R127). -/
def execSub (x y : Reg) (s : State) : Result :=
  .next ((s.setReg x (s.reg x - s.reg y)).setReg Reg.VF (noBorrowFlag (s.reg x) (s.reg y)))

/-- 8xy6 SHR Vx (R128): VF first, then Vx shifted as it then stands. `y` takes no part (R73). -/
def execShr (x _y : Reg) (s : State) : Result :=
  let flagged := s.setReg Reg.VF (shiftedOutRight (s.reg x))
  .next (flagged.setReg x (flagged.reg x >>> 1))

/-- 8xy7 SUBN Vx, Vy (R129). -/
def execSubn (x y : Reg) (s : State) : Result :=
  .next ((s.setReg x (s.reg y - s.reg x)).setReg Reg.VF (noBorrowFlag (s.reg y) (s.reg x)))

/-- 8xyE SHL Vx (R130): VF first, then Vx shifted as it then stands. `y` takes no part (R73). -/
def execShl (x _y : Reg) (s : State) : Result :=
  let flagged := s.setReg Reg.VF (shiftedOutLeft (s.reg x))
  .next (flagged.setReg x (flagged.reg x <<< 1))

/-- Cxkk RND Vx, kk (R131): `rnd` is the tick's input, latched in the port. -/
def execRnd (x : Reg) (kk : Byte) (s : State) : Result := .next (s.setReg x (s.port.rnd &&& kk))

end Sys2Proof.Machine
end

