-- ==== Sys2Proof/Machine/Cycle.lean ====
section
/-! DEFINITION. The tick: its inputs, the input gate, the executing tick and the host's placing of an
instruction word (40_cycle.md). Step.lean only calls what stands here. -/

namespace Sys2Proof.Machine

/-! ### The inputs of a tick (R80, R205) -/

/-- The inputs (K, rnd, preferred key) of the coming tick: the oldest the host has lined up, or free
values numbered by the count of ticks (log 1, log 2). -/
def nextInput (p : Port) : TickInput :=
  match p.inputs with
  | inp :: _ => inp
  | [] => { keys := Config.hostKeys p.ticks
            rnd := Config.randomByte p.ticks
            pick := Config.keyChoice p.ticks }

/-- The ports at the start of a tick: its input is taken, the outputs are low until the tick raises them
(R80, R88, R89), and Load is no longer legal (R223). -/
def Port.opened (p : Port) : Port :=
  { p with inputs := p.inputs.tail, ticks := p.ticks + 1, tone := false, diag := none, loadOpen := false }

/-- The state at the start of a tick: only its ports have moved. -/
def openTick (s : State) : State := { s with port := s.port.opened }

/-- `keys <- K`, the first action of a tick of a core that is not faulted (R80), with `rnd` beside it. -/
def latch (inp : TickInput) (s : State) : State :=
  { s with keys := inp.keys, port := { s.port with rnd := inp.rnd } }

/-! ### The input gate (R81 to R83) -/

/-- KEY_PICK (R82): a pressed key, `pick` if it is pressed and else the lowest pressed one; nothing when
no key is pressed. Whatever member of the pressed set a host reports, some `pick` gives it (log 2). -/
def reportedKey (keys : Vector Bool 16) (pick : Reg) : Option Reg :=
  if keys[pick.val] then some pick else (List.finRange 16).find? fun k => keys[k.val]

/-- The resume tick: `V[keyreg] <- k; waiting <- false` (R82). -/
def resumeTick (k : Reg) (s : State) : State :=
  { s.setReg s.keyreg (BitVec.ofNat 8 k.val) with waiting := false }

/-- A tick of a waiting core, after the key latch: a resume tick if a key is pressed (the level, R83), else
a wait tick, which changes nothing more (R81). -/
def gateTick (pick : Reg) (s : State) : State :=
  match reportedKey s.keys pick with
  | some k => resumeTick k s
  | none => s

/-! ### The executing tick (R84) -/

/-- Step 5 of an executing tick after dispatch: the timer step, unless the instruction raised a fault, which
abandons the tick (R84, R193). -/
def closeTick : Result → Result
  | .next t => .next (if t.fault.isSome then t else timerStep t)
  | .fault r => .fault r
  | .refused r => .refused r

/-- The unmatched no-op: nothing but the diagnostic (R71, R72). -/
def unmatchedNoOp (a w : Word) (s : State) : State :=
  { s with port := { s.port with diag := some { addr := a, word := w } } }

/-- Dispatch of the word `w` fetched at `a`, with PC already advanced (R84 step 4). -/
def dispatch (a w : Word) (s : State) : Result :=
  match decodeWord w with
  | some i => exec i s
  | none => .next (unmatchedNoOp a w s)

/-- The executing tick, after the key latch: fetch, advance, dispatch, timer step (R84). -/
def executingTick (s : State) : Result :=
  match s.mem.fetch s.pc with
  | none => .next (takeFault s.pc .fetchBounds s)
  | some w => closeTick (dispatch s.pc w (advance s))

/-! ### The tick (R80) -/

/-- `Tick(K, rnd)` on a state whose ports are opened: dead, wait, resume or executing (R80, R89). -/
def tick (inp : TickInput) (s : State) : Result :=
  if s.fault.isSome then .next s
  else if s.waiting then .next (gateTick inp.pick (latch inp s))
  else executingTick (latch inp s)

/-! ### Placing an instruction where the next tick fetches it (log 15, log 26) -/

/-- The address withFetchWord uses: PC when a word can be fetched there, else the entry point 0x200. -/
def fetchPlace (pc : Word) : Word := if pc.toNat + 1 > 0xFFF then 0x200 else pc

/-- The state with the table word's bytes where the next tick fetches, and with a core that executes: not
faulted, not waiting, PC at a fetchable address. -/
def placeWord (s : State) (nbits w : Nat) : State :=
  { s with
    pc := fetchPlace s.pc
    waiting := false
    fault := none
    mem := s.mem.writeBytes (fetchPlace s.pc).toNat (bytesOfWord (tableWord nbits w)) }

end Sys2Proof.Machine
end

