-- ==== Sys2Proof/Machine/Step.lean ====
section
/-! DEFINITION. The one step of the machine: a Tick (40_cycle.md rule R80), with the inputs that the host has
lined up or, when it has lined up none, free ones (log 1). -/

namespace Sys2Proof.Machine

/-- One tick. -/
def step (s : State) : Host.Outcome State Fault Refusal := tick (nextInput s.port) (openTick s)

/-- `s` with an instruction word stored where the next step fetches it, and made ready to execute it. At
State.reset only the two bytes at 0x200 change (log 15, log 26). -/
def State.withFetchWord (s : State) (nbits w : Nat) : State := placeWord s nbits w

end Sys2Proof.Machine
end

