-- ==== Sys2Proof/Machine/Events.lean ====
section
/-! DEFINITION. The host's events on the block (60_exceptions.md rule R205): Reset, Load, Tick, DebugRead and
DebugWrite, each atomic and between ticks. -/

namespace Sys2Proof.Machine

/-- An event the host causes (R205). -/
inductive HostEvent where
  /-- Reset with the parameter FONT (R220). -/
  | reset (font : Vector Byte 80)
  /-- Load of a program image (R223). -/
  | load (image : List Byte)
  /-- Tick with its inputs (R80). -/
  | tick (inp : TickInput)
  /-- Debug read of a V register (R206). -/
  | debugReadReg (x : Reg)
  /-- Debug read of a memory byte (R206). -/
  | debugReadMem (a : Fin 4096)
  /-- Debug write of a V register (R206). -/
  | debugWriteReg (x : Reg) (b : Byte)
  /-- Debug write of a memory byte (R206). -/
  | debugWriteMem (a : Fin 4096) (b : Byte)
  deriving DecidableEq, Repr

/-- What the host is told. -/
inductive Reply where
  /-- The event happened. -/
  | done
  /-- The event did not happen: no state change (R224). -/
  | refused
  /-- The value of a debug read. -/
  | byte (b : Byte)
  deriving DecidableEq, Repr

/-- Reset applied in any state (R220, R221). The inputs the host has lined up and the count that numbers
the free inputs are the host's, and stay (log 18). -/
def applyReset (font : Vector Byte 80) (s : State) : State :=
  { State.resetWith font with
    port := { Port.reset with inputs := s.port.inputs, ticks := s.port.ticks } }

/-- A Load that is legal now (R223): at most 3584 bytes, no Tick and no Load since the last Reset. -/
def loadAllowed (image : List Byte) (s : State) : Bool :=
  decide (image.length ≤ Config.progMax) && s.port.loadOpen

/-- The effect of a legal Load: the image copied verbatim to 0x200 (R223). -/
def applyLoad (image : List Byte) (s : State) : State :=
  { s with
    mem := s.mem.writeBytes Config.progBase image
    port := { s.port with loadOpen := false } }

/-- The state with an input lined up before all others. -/
def offerInput (inp : TickInput) (s : State) : State :=
  { s with port := { s.port with inputs := inp :: s.port.inputs } }

/-- One host event: the state after it and what the host is told. -/
def hostEvent (e : HostEvent) (s : State) : Host.Outcome (State × Reply) Fault Refusal :=
  match e with
  | .reset font => .next (applyReset font s, .done)
  | .load image => .next (if loadAllowed image s then (applyLoad image s, .done) else (s, .refused))
  | .tick inp =>
    match step (offerInput inp s) with
    | .next t => .next (t, .done)
    | .fault r => .fault r
    | .refused r => .refused r
  | .debugReadReg x => .next (s, .byte (s.reg x))
  | .debugReadMem a => .next (s, .byte (s.mem.read a.val))
  | .debugWriteReg x b => .next (s.setReg x b, .done)
  | .debugWriteMem a b => .next ({ s with mem := s.mem.write a.val b }, .done)

end Sys2Proof.Machine
end

