-- ==== Sys2Proof/Safety.lean ====
section
/-! DEFINITION. The words claims are stated in: which tick a state takes, when a fault is due, the invariants
of the machine, parked states and safe runs. Nothing of the machine depends on this file. -/

namespace Sys2Proof.Machine

/-! ### Encoding -/

/-- Every word of a row of the opcode table stands for the row's instruction (R63). -/
def RowDecodesAs (mask pattern : Word) (build : Word → Instr) : Prop :=
  ∀ w : Word, w &&& mask = pattern → decodeWord w = some (build w)

/-! ### What a state is about to do (R80, R84) -/

/-- The big-endian word whose first byte is at PC (R42). -/
def wordAtPc (s : State) : Word := wordOfBytes (s.mem.read s.pc.toNat) (s.mem.read (s.pc.toNat + 1))

/-- The next tick is an executing tick (R80). -/
def Executes (s : State) : Prop := s.fault = none ∧ s.waiting = false

/-- The next tick is an executing tick whose fetch succeeds (R42). -/
def Fetches (s : State) : Prop := Executes s ∧ s.pc.toNat + 1 ≤ 0xFFF

/-- The next tick is an executing tick that dispatches `i`. -/
def FetchesInstr (s : State) (i : Instr) : Prop := Fetches s ∧ decodeWord (wordAtPc s) = some i

/-- The state in which an executing tick from `s` dispatches: ports opened, inputs latched, PC advanced
(R80, R84). -/
def atDispatch (s : State) : State := advance (latch (nextInput s.port) (openTick s))

/-- The key snapshot that the next tick latches (R80). -/
def nextKeys (s : State) : Vector Bool 16 := (nextInput s.port).keys

/-- No key of the snapshot is pressed. -/
def NoKey (keys : Vector Bool 16) : Prop := ∀ k : Reg, keys[k.val] = false

/-! ### Faults (R192) -/

/-- The "exactly when" column of R192 for an instruction: it depends on I, SP and Vx alone. -/
def faultOfInstr (i : Instr) (s : State) : Option Fault :=
  match i with
  | .drw _ _ n => if 1 ≤ n ∧ s.i.toNat + n - 1 > 0xFFF then some .loadBounds else none
  | .ldVxMem x => if s.i.toNat + x.val > 0xFFF then some .loadBounds else none
  | .ldB _ => if s.i.toNat + 2 > 0xFFF then some .storeBounds else none
  | .ldMemVx x => if s.i.toNat + x.val > 0xFFF then some .storeBounds else none
  | .call _ => if s.sp.val = 16 then some .stackOverflow else none
  | .ret => if s.sp.val = 0 then some .stackUnderflow else none
  | .skp x | .sknp x => if (s.reg x).toNat > 15 then some .keyIndex else none
  | .cls | .jp _ | .seImm _ _ | .sneImm _ _ | .seReg _ _ | .ldImm _ _ | .addImm _ _ | .ldReg _ _
  | .or _ _ | .and _ _ | .xor _ _ | .addReg _ _ | .sub _ _ | .shr _ _ | .subn _ _ | .shl _ _
  | .sneReg _ _ | .ldI _ | .jpV0 _ | .rnd _ _ | .ldVxDt _ | .ldVxK _ | .ldDtVx _ | .ldStVx _
  | .addI _ | .ldF _ => none

/-- The fault an executing tick from `s` raises, the fetch's check first (R192, R194). -/
def faultDue (s : State) : Option Fault :=
  if s.pc.toNat ≥ 0xFFF then some .fetchBounds
  else match decodeWord (wordAtPc s) with
    | some i => faultOfInstr i s
    | none => none

/-- A recorded fault is the one due in the preserved state (R192 "it can be recomputed from the preserved
state"), and a faulted core is not waiting. -/
def FaultExplained (s : State) : Prop :=
  ∀ f, s.fault = some f → s.waiting = false ∧ faultDue s = some f

/-! ### Reset -/

/-- The state of R220 for a font, the ports aside. -/
def IsResetState (font : Vector Byte 80) (t : State) : Prop :=
  (∀ (a : Nat) (h : a < 80), t.mem.read a = font[a]) ∧
  (∀ a : Nat, 0x050 ≤ a → a ≤ 0xFFF → t.mem.read a = 0) ∧
  (∀ r : Reg, t.reg r = 0) ∧ t.i = 0 ∧ t.pc = 0x200 ∧
  (∀ j : Fin 16, t.stack[j.val] = 0) ∧ t.sp.val = 0 ∧ t.dt = 0 ∧ t.st = 0 ∧
  (∀ (r : Fin 32) (c : Fin 64), t.disp.cell r c = false) ∧
  NoKey t.keys ∧ t.waiting = false ∧ t.keyreg = 0 ∧ t.fault = none

/-! ### The invariant of the machine -/

/-- What every step keeps: memory in its canonical form; PC at most 0x10FE, the highest target of Bnnn
(R14, R103), so that PC arithmetic never wraps (R13); stack slots at most 0x1000, the highest return
address (R102); and no core both waiting and faulted (R80, R194). -/
structure State.Inv (s : State) : Prop where
  /-- Memory is in its canonical form. -/
  mem_wf : s.mem.wf
  /-- PC is at most 0x10FE. -/
  pc_bound : s.pc.toNat ≤ 0x10FE
  /-- Every stack slot is at most 0x1000. -/
  stack_bound : ∀ j : Fin 16, s.stack[j.val].toNat ≤ 0x1000
  /-- A waiting core has no fault. -/
  waiting_ok : s.waiting = true → s.fault = none

/-! ### The sprite of a draw (R162, R163) -/

/-- A set bit of the `n`-row sprite at I maps to cell (r, c) when drawn at (Vx, Vy): the `s` of R163. -/
def SpriteCovers (s : State) (x y : Reg) (n : Nat) (r : Fin 32) (c : Fin 64) : Prop :=
  ∃ row col : Nat, row < n ∧ col < 8 ∧
    (s.mem.read (s.i.toNat + row)).getLsbD (7 - col) = true ∧
    r.val = ((s.reg y).toNat + row) % 32 ∧ c.val = ((s.reg x).toNat + col) % 64

/-! ### Runs -/

/-- `P` holds of the state before each of the first `n` ticks of the run from `s`. -/
def HoldsFor (P : State → Prop) : Nat → State → Prop
  | 0, _ => True
  | n + 1, s => P s ∧ ∀ t, step s = .next t → HoldsFor P n t

/-- A safe run of `n` ticks: no tick finds the core faulted and none faults (R193 "fault = 0
throughout"). -/
def SafeFor (n : Nat) (s : State) : Prop := HoldsFor (fun t => t.fault = none) (n + 1) s

/-- The next tick is an executing tick that raises no fault: it runs the timer step (R87, R89). -/
def State.completes (s : State) : Bool := s.fault.isNone && !s.waiting && (faultDue s).isNone

/-- How many of the first `n` ticks of the run from `s` run the timer step: wait, resume, dead and faulting ticks
do not count (R176, R89). -/
def completedTicks : Nat → State → Nat
  | 0, _ => 0
  | n + 1, s =>
    (if s.completes then 1 else 0) +
      match step s with
      | .next t => completedTicks n t
      | .fault _ => 0
      | .refused _ => 0

/-- The next tick does not execute Fx15. -/
def LeavesDt (s : State) : Prop := ∀ x, ¬ FetchesInstr s (.ldDtVx x)

/-- The next tick does not execute Fx18. -/
def LeavesSt (s : State) : Prop := ∀ x, ¬ FetchesInstr s (.ldStVx x)

/-- A parked state (R230): not faulted, not waiting, and the word at PC is 1nnn with nnn = PC. -/
def Parked (s : State) : Prop :=
  ∃ nnn : BitVec 12, FetchesInstr s (.jp nnn) ∧ s.pc.toNat = nnn.toNat

end Sys2Proof.Machine
end

