-- ==== Sys2Proof/Certificates/Slice0/Obligations.lean ====
section
/-! DEFINITION. The statements for the provers. Each docstring names the rule of spec/ it formalises, or says
which decision of spec/92_eei_decisions.md or which log entry it rests on.

A conclusion `t = { s with v := t.v }` (or with other fields) is the frame: every field of the state but the
ones named is unchanged, memory among them, so that every address reads as before unless `mem` is named. -/

open Sys2Proof Sys2Proof.Machine

/-! ### Reset and host events -/

/-- R220: Reset, applied in any state, a faulted one included, gives the state of R220; State.reset is that state
for whatever FONT is (FONT itself is an open parameter: log 3); no event but Reset changes a recorded fault. -/
def Obligations.ResetGivesStateOfR220 : Prop :=
  (∀ font, IsResetState font (State.resetWith font)) ∧ IsResetState Config.font State.reset ∧
  (∀ (font : Vector Byte 80) (s : State), ∃ t,
    hostEvent (.reset font) s = .next (t, .done) ∧ IsResetState font t) ∧
  ∀ (e : HostEvent) (s : State) (f : Fault), s.fault = some f → (∀ font, e ≠ .reset font) →
    ∃ t reply, hostEvent e s = .next (t, reply) ∧ t.fault = some f

/-- Section 2 of 70_reset_and_hazards.md: a Load of at most 3584 bytes, before any Tick and any Load, copies the image to 0x200 and changes
nothing else; any other Load changes nothing and is refused; Reset makes a Load legal (rule R225), and after a
Load, and after a Tick, no Load is. The two refusals are decision D18 (log 22), the bit that tells whether a
Load is legal is log 5. -/
def Obligations.LoadCopiesImageOnceBeforeTicks : Prop :=
  (∀ (image : List Byte) (s : State), image.length ≤ 3584 → s.port.loadOpen = true → ∃ t,
    hostEvent (.load image) s = .next (t, .done) ∧
    (∀ (k : Nat) (h : k < image.length), t.mem.read (0x200 + k) = image[k]) ∧
    (∀ a : Nat, a < 0x200 ∨ 0x200 + image.length ≤ a → t.mem.read a = s.mem.read a) ∧
    t.mem.font = s.mem.font ∧ t.port.loadOpen = false ∧
    t = { s with mem := t.mem, port := { s.port with loadOpen := false } }) ∧
  (∀ (image : List Byte) (s : State), 3584 < image.length ∨ s.port.loadOpen = false →
    hostEvent (.load image) s = .next (s, .refused)) ∧
  (∀ s t : State, step s = .next t → t.port.loadOpen = false) ∧
  State.reset.port.loadOpen = true ∧
  (∀ (font : Vector Byte 80) (s : State), ∃ t,
    hostEvent (.reset font) s = .next (t, .done) ∧ t.port.loadOpen = true)

/-- Decision D21 (log 17): the debug port reads and writes V registers and memory bytes, and a write changes
that register or byte alone. -/
def Obligations.DebugPortReachesRegistersAndMemory : Prop :=
  ∀ s : State,
    (∀ x : Reg, hostEvent (.debugReadReg x) s = .next (s, .byte (s.reg x))) ∧
    (∀ a : Fin 4096, hostEvent (.debugReadMem a) s = .next (s, .byte (s.mem.read a.val))) ∧
    (∀ (x : Reg) (b : Byte), ∃ t, hostEvent (.debugWriteReg x b) s = .next (t, .done) ∧
      (∀ r : Reg, t.reg r = if r = x then b else s.reg r) ∧ t = { s with v := t.v }) ∧
    (∀ (a : Fin 4096) (b : Byte), ∃ t, hostEvent (.debugWriteMem a b) s = .next (t, .done) ∧
      (∀ k : Nat, t.mem.read k = if k = a.val then b else s.mem.read k) ∧
      t.mem.font = s.mem.font ∧ t = { s with mem := t.mem })

/-! ### Encoding -/

/-- Section 3 of 30_encoding.md: a word that matches a row's mask and pattern decodes to the row's instruction with the fields of R61,
and a word that matches no row decodes to nothing. -/
def Obligations.EveryRowDecodesByItsMask : Prop :=
  RowDecodesAs 0xFFFF 0x00E0 (fun _ => .cls) ∧
  RowDecodesAs 0xFFFF 0x00EE (fun _ => .ret) ∧
  RowDecodesAs 0xF000 0x1000 (fun w => .jp (fieldNNN w)) ∧
  RowDecodesAs 0xF000 0x2000 (fun w => .call (fieldNNN w)) ∧
  RowDecodesAs 0xF000 0x3000 (fun w => .seImm (fieldX w) (fieldKK w)) ∧
  RowDecodesAs 0xF000 0x4000 (fun w => .sneImm (fieldX w) (fieldKK w)) ∧
  RowDecodesAs 0xF00F 0x5000 (fun w => .seReg (fieldX w) (fieldY w)) ∧
  RowDecodesAs 0xF000 0x6000 (fun w => .ldImm (fieldX w) (fieldKK w)) ∧
  RowDecodesAs 0xF000 0x7000 (fun w => .addImm (fieldX w) (fieldKK w)) ∧
  RowDecodesAs 0xF00F 0x8000 (fun w => .ldReg (fieldX w) (fieldY w)) ∧
  RowDecodesAs 0xF00F 0x8001 (fun w => .or (fieldX w) (fieldY w)) ∧
  RowDecodesAs 0xF00F 0x8002 (fun w => .and (fieldX w) (fieldY w)) ∧
  RowDecodesAs 0xF00F 0x8003 (fun w => .xor (fieldX w) (fieldY w)) ∧
  RowDecodesAs 0xF00F 0x8004 (fun w => .addReg (fieldX w) (fieldY w)) ∧
  RowDecodesAs 0xF00F 0x8005 (fun w => .sub (fieldX w) (fieldY w)) ∧
  RowDecodesAs 0xF00F 0x8006 (fun w => .shr (fieldX w) (fieldY w)) ∧
  RowDecodesAs 0xF00F 0x8007 (fun w => .subn (fieldX w) (fieldY w)) ∧
  RowDecodesAs 0xF00F 0x800E (fun w => .shl (fieldX w) (fieldY w)) ∧
  RowDecodesAs 0xF00F 0x9000 (fun w => .sneReg (fieldX w) (fieldY w)) ∧
  RowDecodesAs 0xF000 0xA000 (fun w => .ldI (fieldNNN w)) ∧
  RowDecodesAs 0xF000 0xB000 (fun w => .jpV0 (fieldNNN w)) ∧
  RowDecodesAs 0xF000 0xC000 (fun w => .rnd (fieldX w) (fieldKK w)) ∧
  RowDecodesAs 0xF000 0xD000 (fun w => .drw (fieldX w) (fieldY w) (fieldN w)) ∧
  RowDecodesAs 0xF0FF 0xE09E (fun w => .skp (fieldX w)) ∧
  RowDecodesAs 0xF0FF 0xE0A1 (fun w => .sknp (fieldX w)) ∧
  RowDecodesAs 0xF0FF 0xF007 (fun w => .ldVxDt (fieldX w)) ∧
  RowDecodesAs 0xF0FF 0xF00A (fun w => .ldVxK (fieldX w)) ∧
  RowDecodesAs 0xF0FF 0xF015 (fun w => .ldDtVx (fieldX w)) ∧
  RowDecodesAs 0xF0FF 0xF018 (fun w => .ldStVx (fieldX w)) ∧
  RowDecodesAs 0xF0FF 0xF01E (fun w => .addI (fieldX w)) ∧
  RowDecodesAs 0xF0FF 0xF029 (fun w => .ldF (fieldX w)) ∧
  RowDecodesAs 0xF0FF 0xF033 (fun w => .ldB (fieldX w)) ∧
  RowDecodesAs 0xF0FF 0xF055 (fun w => .ldMemVx (fieldX w)) ∧
  RowDecodesAs 0xF0FF 0xF065 (fun w => .ldVxMem (fieldX w)) ∧
  ∀ w : Word, (∀ row ∈ opcodeTable, w &&& row.mask ≠ row.pattern) → decodeWord w = none

/-- Section 4 of 30_encoding.md, whose list the spec marks as derived: the words no row matches, by first
nibble. -/
def Obligations.UnmatchedWordsAreExactlyThese : Prop :=
  ∀ w : Word, decodeWord w = none ↔
    (w.toNat / 4096 = 0 ∧ w ≠ 0x00E0 ∧ w ≠ 0x00EE) ∨
    ((w.toNat / 4096 = 5 ∨ w.toNat / 4096 = 9) ∧ w.toNat % 16 ≠ 0) ∨
    (w.toNat / 4096 = 8 ∧ 8 ≤ w.toNat % 16 ∧ w.toNat % 16 ≠ 0xE) ∨
    (w.toNat / 4096 = 0xE ∧ w.toNat % 256 ≠ 0x9E ∧ w.toNat % 256 ≠ 0xA1) ∨
    (w.toNat / 4096 = 0xF ∧ w.toNat % 256 ∉ [0x07, 0x0A, 0x15, 0x18, 0x1E, 0x29, 0x33, 0x55, 0x65])

/-- Decoding and encoding agree in both directions: every well-formed instruction is what its word decodes
to, and every word that decodes is the word of the (well-formed) instruction it decodes to. -/
def Obligations.DecodeAndEncodeAreInverse : Prop :=
  (∀ i : Instr, i.wellFormed = true → decodeWord (encode i) = some i) ∧
  (∀ (w : Word) (i : Instr), decodeWord w = some i → i.wellFormed = true ∧ encode i = w)

/-- Words written out from the encodings of 95_test_vectors.md decode to the instructions they stand for, one
or more for each family. -/
def Obligations.SampleWordsDecode : Prop :=
  decodeWord 0x00EE = some .ret ∧ decodeWord 0x2300 = some (.call 0x300) ∧
  decodeWord 0x3F01 = some (.seImm 15 0x01) ∧ decodeWord 0x5120 = some (.seReg 1 2) ∧
  decodeWord 0x6ABC = some (.ldImm 10 0xBC) ∧ decodeWord 0x8014 = some (.addReg 0 1) ∧
  decodeWord 0x81F6 = some (.shr 1 15) ∧ decodeWord 0xC30F = some (.rnd 3 0x0F) ∧
  decodeWord 0xF21E = some (.addI 2) ∧ decodeWord 0xF033 = some (.ldB 0) ∧
  decodeWord 0xD012 = some (.drw 0 1 2) ∧ decodeWord 0xE1A1 = some (.sknp 1) ∧
  decodeWord 0xF10A = some (.ldVxK 1) ∧ decodeWord 0x01EE = none ∧ decodeWord 0x5121 = none

/-- Section 3 of 20_memory.md: bytes are decoded big-endian, two at a time, and the table's numbering of a word
is the numbering of its bits. -/
def Obligations.BytesDecodeBigEndian : Prop :=
  (∀ (high low : Byte) (rest : List Byte),
    decodeBytes (high :: low :: rest) =
      match decodeWord (BitVec.ofNat 16 (high.toNat * 256 + low.toNat)) with
      | some i => .instr i rest
      | none => .unmatched (BitVec.ofNat 16 (high.toNat * 256 + low.toNat)) rest) ∧
  (∀ w : Word, decodeTableWord 16 w.toNat = decodeWord w) ∧
  (∀ (i : Instr) (rest : List Byte), i.wellFormed = true →
    decodeBytes (encodeBytes i ++ rest) = .instr i rest)

/-! ### The tick -/

/-- Section 3 of 40_cycle.md: when the word at PC decodes to `i`, the step dispatches `i` on the state with its inputs latched and PC
advanced by 2, and then runs the timer step, unless the instruction raised a fault. -/
def Obligations.StepRunsDecodedInstruction : Prop :=
  ∀ (s : State) (i : Instr), FetchesInstr s i →
    (atDispatch s).pc = s.pc + 2 ∧ (atDispatch s).keys = nextKeys s ∧
    (atDispatch s).port.rnd = (nextInput s.port).rnd ∧
    atDispatch s = { s with pc := s.pc + 2, keys := (atDispatch s).keys, port := (atDispatch s).port } ∧
    (∀ u, exec i (atDispatch s) = .next u → u.fault = none → step s = .next (timerStep u)) ∧
    (∀ u f, exec i (atDispatch s) = .next u → u.fault = some f → step s = .next u)

/-- Section 4 of 30_encoding.md (the form of `diag` is decision D19: log 4): a tick that fetches an unmatched word advances PC by 2, runs the timer step and raises `diag`, and
changes nothing else. -/
def Obligations.UnmatchedWordIsANoOp : Prop :=
  ∀ s : State, Fetches s → decodeWord (wordAtPc s) = none → ∃ t, step s = .next t ∧
    t.pc = s.pc + 2 ∧ t.dt.toNat = s.dt.toNat - 1 ∧ t.st.toNat = s.st.toNat - 1 ∧
    t.keys = nextKeys s ∧ t.port.diag = some { addr := s.pc, word := wordAtPc s } ∧
    t.port.tone = decide (s.st.toNat > 0) ∧
    t = { s with pc := t.pc, dt := t.dt, st := t.st, keys := t.keys, port := t.port }

/-- Section 4 of 40_cycle.md: the timer step ends every executing tick, after dispatch of whatever word was fetched, an unmatched one
included, unless that raised a fault: each timer counts down by one and stops at 0, `tone` is true exactly when
ST was above 0 after dispatch, and nothing else changes. In every other tick no timer moves (decision D5: log 9)
and `tone` is false (decision D23: log 27). -/
def Obligations.TimerStepEndsEveryExecutingTick : Prop :=
  (∀ s u : State, Fetches s → dispatch s.pc (wordAtPc s) (atDispatch s) = .next u → u.fault = none →
    ∃ t, step s = .next t ∧
      t.dt.toNat = (if u.dt.toNat > 0 then u.dt.toNat - 1 else 0) ∧
      t.st.toNat = (if u.st.toNat > 0 then u.st.toNat - 1 else 0) ∧
      (t.port.tone = true ↔ u.st.toNat > 0) ∧
      t = { u with dt := t.dt, st := t.st, port := { u.port with tone := t.port.tone } }) ∧
  (∀ s t : State, ¬ Executes s → step s = .next t → t.dt = s.dt ∧ t.st = s.st ∧ t.port.tone = false)

/-- Decision D6 (log 6): an executing tick with PC at or above 0xFFF records FetchBounds and changes nothing
but the key snapshot. -/
def Obligations.FetchBeyondMemoryFaults : Prop :=
  ∀ s : State, Executes s → s.pc.toNat ≥ 0xFFF → ∃ t, step s = .next t ∧
    t.fault = some .fetchBounds ∧ faultCode t.fault = 1 ∧ t.keys = nextKeys s ∧
    t.port.tone = false ∧ t.port.diag = none ∧
    t = { s with fault := t.fault, keys := t.keys, port := t.port }

/-- Decisions D1, D9 (log 6): a tick of a faulted core changes nothing, and its outputs are low. -/
def Obligations.DeadTickChangesNothing : Prop :=
  ∀ (s : State) (f : Fault), s.fault = some f → ∃ t, step s = .next t ∧
    t.port.tone = false ∧ t.port.diag = none ∧ t = { s with port := t.port }

/-- Decisions D2, D5 (log 9): a tick of a waiting core whose snapshot has no key pressed changes nothing but
`keys`. -/
def Obligations.WaitTickLatchesKeysOnly : Prop :=
  ∀ s : State, s.fault = none → s.waiting = true → NoKey (nextKeys s) → ∃ t, step s = .next t ∧
    t.keys = nextKeys s ∧ t.port.tone = false ∧ t.port.diag = none ∧
    t = { s with keys := t.keys, port := t.port }

/-- Decisions D3, D4, D5 (log 2, log 9): a tick of a waiting core whose snapshot has a key pressed stores the
index of a pressed key into V[keyreg] and clears `waiting`; the key is the preferred one if it is pressed, and
the lowest pressed one otherwise; nothing else changes but `keys`. -/
def Obligations.ResumeTickStoresAPressedKey : Prop :=
  ∀ s : State, s.fault = none → s.waiting = true → ¬ NoKey (nextKeys s) → ∃ (t : State) (k : Reg),
    step s = .next t ∧ (nextKeys s)[k.val] = true ∧
    ((nextKeys s)[(nextInput s.port).pick.val] = true → k = (nextInput s.port).pick) ∧
    ((nextKeys s)[(nextInput s.port).pick.val] = false →
      ∀ j : Reg, (nextKeys s)[j.val] = true → k ≤ j) ∧
    (∀ r : Reg, t.reg r = if r = s.keyreg then BitVec.ofNat 8 k.val else s.reg r) ∧
    t.waiting = false ∧ t.keys = nextKeys s ∧ t.port.tone = false ∧ t.port.diag = none ∧
    t = { s with v := t.v, waiting := t.waiting, keys := t.keys, port := t.port }

/-- Section 2 of 40_cycle.md (decisions D2, D5: log 9): while the host presents snapshots with no key pressed,
a waiting core waits, however long, and nothing but `keys` changes. -/
def Obligations.WaitLastsWhileNoKeyIsPressed : Prop :=
  ∀ (n : Nat) (s : State), s.fault = none → s.waiting = true → n ≤ s.port.inputs.length →
    (∀ inp ∈ s.port.inputs.take n, NoKey inp.keys) →
    ∃ t, Sys2Proof.core.run n s = .next t ∧ t.waiting = true ∧
      t = { s with keys := t.keys, port := t.port }

/-- Section 5 of 40_cycle.md (decision D23: log 27), its table read for the outputs: `tone` and `diag` are
raised only by an executing tick that raises no fault, `diag` exactly when its word is unmatched. -/
def Obligations.OutputsAreRaisedOnlyByExecutingTicks : Prop :=
  ∀ s t : State, step s = .next t →
    (t.port.tone = true → Executes s ∧ t.fault = none) ∧
    (t.port.diag ≠ none ↔ Fetches s ∧ decodeWord (wordAtPc s) = none)

/-- Section 1 of 40_cycle.md and log 1: the inputs of a tick are the oldest the host has lined up; it takes that
one and no other; when none is lined up they are the free values numbered by the tick count. -/
def Obligations.TickTakesTheOldestInput : Prop :=
  (∀ (s t : State) (inp : TickInput) (rest : List TickInput), s.port.inputs = inp :: rest →
    s.fault = none → step s = .next t →
      t.port.inputs = rest ∧ t.keys = inp.keys ∧ t.port.rnd = inp.rnd ∧ t.port.ticks = s.port.ticks + 1) ∧
  (∀ s t : State, s.port.inputs = [] → s.fault = none → step s = .next t →
      t.port.inputs = [] ∧ t.keys = Config.hostKeys s.port.ticks ∧
      t.port.rnd = Config.randomByte s.port.ticks ∧ t.port.ticks = s.port.ticks + 1)

/-- Log 15 and log 26: placing a table word makes the very next tick fetch and dispatch exactly the instruction
it stands for; where PC is fetchable and the core executes, it changes the two bytes at PC alone. -/
def Obligations.PlacedWordIsFetchedNext : Prop :=
  (∀ (s : State) (nbits w : Nat) (i : Instr), decodeTableWord nbits w = some i →
    FetchesInstr (s.withFetchWord nbits w) i) ∧
  (∀ (s : State) (nbits w : Nat), Fetches s →
    (∀ a : Nat, a ≠ s.pc.toNat → a ≠ s.pc.toNat + 1 →
      (s.withFetchWord nbits w).mem.read a = s.mem.read a) ∧
    s.withFetchWord nbits w = { s with mem := (s.withFetchWord nbits w).mem })

/-! ### Invariants and whole-machine rules -/

/-- The invariant holds after Reset, for whatever FONT is. -/
def Obligations.ResetMeetsTheInvariant : Prop :=
  (∀ font, (State.resetWith font).Inv ∧ FaultExplained (State.resetWith font)) ∧ State.reset.Inv

/-- Every step keeps the invariant: memory canonical, PC at most 0x10FE, stack slots at most 0x1000, no core
both waiting and faulted. -/
def Obligations.StepKeepsTheInvariant : Prop :=
  ∀ s t : State, s.Inv → step s = .next t → t.Inv

/-- Every step keeps "a recorded fault is the one due in the preserved state" (section 2 of 60_exceptions.md,
decision D9: log 6). -/
def Obligations.StepKeepsFaultsExplained : Prop :=
  ∀ s t : State, FaultExplained s → step s = .next t → FaultExplained t

/-- The table of fault causes of 60_exceptions.md section 2 (decisions D6 to D9: log 6): a tick of a core with
no fault always answers a next state, a wait or resume tick raises nothing, and an executing tick records
exactly the fault that is due, the fetch's check first. -/
def Obligations.TickFaultsExactlyWhenDue : Prop :=
  ∀ s : State, s.fault = none → ∃ t, step s = .next t ∧
    t.fault = if s.waiting = true then none else faultDue s

/-- Decision D9 (log 6, log 7): a fault is precise: the faulting tick changes nothing but `fault` and `keys`, and
its outputs are low. -/
def Obligations.FaultsArePrecise : Prop :=
  (∀ (s t : State) (f : Fault), s.fault = none → step s = .next t → t.fault = some f →
    t.keys = nextKeys s ∧ t.port.tone = false ∧ t.port.diag = none ∧
    t = { s with fault := some f, keys := t.keys, port := t.port }) ∧
  (∀ (i : Instr) (s t : State) (f : Fault), s.fault = none → exec i s = .next t → t.fault = some f →
    t = { s with pc := s.pc - 2, fault := some f })

/-- Section 1 of 10_state.md, its "written by" column: each piece of state but PC, which every executing tick
writes, is written by the instructions named there and by no other; no instruction writes `keys`, the ports or the font table. -/
def Obligations.StateIsWrittenOnlyByNamedInstructions : Prop :=
  ∀ (i : Instr) (s t : State), exec i s = .next t →
    (t.mem ≠ s.mem → ∃ x, i = .ldB x ∨ i = .ldMemVx x) ∧
    (t.v ≠ s.v → (∃ x kk, i = .ldImm x kk ∨ i = .addImm x kk ∨ i = .rnd x kk) ∨
      (∃ x y, i = .ldReg x y ∨ i = .or x y ∨ i = .and x y ∨ i = .xor x y ∨ i = .addReg x y ∨ i = .sub x y ∨
        i = .shr x y ∨ i = .subn x y ∨ i = .shl x y) ∨
      (∃ x y n, i = .drw x y n) ∨ ∃ x, i = .ldVxDt x ∨ i = .ldVxMem x) ∧
    (t.disp ≠ s.disp → i = .cls ∨ ∃ x y n, i = .drw x y n) ∧
    (t.stack ≠ s.stack → ∃ nnn, i = .call nnn) ∧
    (t.sp ≠ s.sp → i = .ret ∨ ∃ nnn, i = .call nnn) ∧
    (t.i ≠ s.i → (∃ nnn, i = .ldI nnn) ∨ ∃ x, i = .addI x ∨ i = .ldF x) ∧
    (t.dt ≠ s.dt → ∃ x, i = .ldDtVx x) ∧ (t.st ≠ s.st → ∃ x, i = .ldStVx x) ∧
    (t.waiting ≠ s.waiting ∨ t.keyreg ≠ s.keyreg → ∃ x, i = .ldVxK x) ∧
    (t.fault ≠ s.fault → faultOfInstr i s = t.fault) ∧
    t.keys = s.keys ∧ t.port = s.port ∧ t.mem.font = s.mem.font

/-- Section 4 of 10_state.md: VF changes only in an instruction that writes it as a flag or that has it as an
ordinary destination; no other register changes but a named destination. -/
def Obligations.RegistersAreWrittenOnlyByDestinations : Prop :=
  ∀ (i : Instr) (s t : State) (r : Reg), exec i s = .next t → t.reg r ≠ s.reg r →
    (r = Reg.VF ∧ ((∃ x y, i = .addReg x y ∨ i = .sub x y ∨ i = .subn x y ∨ i = .shr x y ∨ i = .shl x y)
      ∨ ∃ x y n, i = .drw x y n)) ∨
    (∃ kk, i = .ldImm r kk ∨ i = .addImm r kk ∨ i = .rnd r kk) ∨
    (∃ y, i = .ldReg r y ∨ i = .or r y ∨ i = .and r y ∨ i = .xor r y ∨ i = .addReg r y ∨ i = .sub r y ∨
      i = .subn r y ∨ i = .shr r y ∨ i = .shl r y) ∨
    i = .ldVxDt r ∨ (∃ x : Reg, r ≤ x ∧ i = .ldVxMem x)

/-- Section 3 of 10_state.md ("How each instruction leaves it"; PC mod 65536 is decision D11: log 11): where PC is
after an executing tick that raises no fault. -/
def Obligations.PcAfterEachInstruction : Prop :=
  ∀ (s t : State) (i : Instr), FetchesInstr s i → step s = .next t → t.fault = none →
    (∀ nnn, i = .jp nnn ∨ i = .call nnn → t.pc.toNat = nnn.toNat) ∧
    (∀ nnn, i = .jpV0 nnn → t.pc.toNat = nnn.toNat + (s.reg Reg.V0).toNat) ∧
    (i = .ret → ∃ j : Fin 16, j.val + 1 = s.sp.val ∧ t.pc = s.stack[j.val]) ∧
    ((∀ nnn, i ≠ .jp nnn ∧ i ≠ .call nnn ∧ i ≠ .jpV0 nnn) → i ≠ .ret →
      t.pc = s.pc + 2 ∨ (t.pc = s.pc + 4 ∧ ((∃ x kk, i = .seImm x kk ∨ i = .sneImm x kk) ∨
        (∃ x y, i = .seReg x y ∨ i = .sneReg x y) ∨ ∃ x, i = .skp x ∨ i = .sknp x)))

/-! ### Main memory -/

/-- Sections 2 and 7 of 20_memory.md: a byte read is the last byte written there, and a write leaves every other
byte and the font table alone. -/
def Obligations.MemoryReadsTheLastWrite : Prop :=
  ∀ (m : Memory) (a k : Nat) (b : Byte),
    (m.write a b).read k = (if k = a then b else m.read k) ∧ (m.write a b).font = m.font

/-- Log 14: memory is in ONE canonical form: writes inside the address space keep it, and two memories in it
with one font table that read alike everywhere are equal data. -/
def Obligations.MemoryFormIsCanonical : Prop :=
  (∀ (m : Memory) (a : Nat) (b : Byte), m.wf → a < 4096 → (m.write a b).wf) ∧
  (∀ m m' : Memory, m.wf → m'.wf → m.font = m'.font → (∀ a, m.read a = m'.read a) → m = m')

/-- Sections 2 and 3 of 20_memory.md (the bound is decision D6: log 6): a fetch at an address up to 0xFFE gives the
big-endian word of the bytes at it and after it, and above that gives nothing. -/
def Obligations.FetchIsBigEndianAndBounded : Prop :=
  (∀ (m : Memory) (a : Word), a.toNat ≤ 0xFFE →
    m.fetch a = some (BitVec.ofNat 16 ((m.read a.toNat).toNat * 256 + (m.read (a.toNat + 1)).toNat))) ∧
  (∀ (m : Memory) (a : Word), 0xFFE < a.toNat → m.fetch a = none)

/-- Section 8 of 20_memory.md, which the spec marks as derived: what Fx55 stores at I is what a fetch at I then
reads, V0 as the high byte and V1 as the low one. -/
def Obligations.StoreIsSeenByTheNextFetch : Prop :=
  ∀ (x : Reg) (s : State), 1 ≤ x.val → s.i.toNat + x.val ≤ 0xFFF → ∃ t,
    exec (.ldMemVx x) s = .next t ∧
    t.mem.fetch s.i = some (BitVec.ofNat 16 ((s.reg 0).toNat * 256 + (s.reg 1).toNat))

/-! ### Control transfer -/

/-- R105: 1nnn. -/
def Obligations.JumpSetsPc : Prop :=
  RowDecodesAs 0xF000 0x1000 (fun w => .jp (fieldNNN w)) ∧
  ∀ (nnn : BitVec 12) (s : State), ∃ t, exec (.jp nnn) s = .next t ∧
    t.pc.toNat = nnn.toNat ∧ t = { s with pc := t.pc }

/-- Section "Bnnn JP V0" of 41_control_flow.md (the sum is not cut to 12 bits: decision D28, log 28). -/
def Obligations.IndexedJumpAddsV0 : Prop :=
  RowDecodesAs 0xF000 0xB000 (fun w => .jpV0 (fieldNNN w)) ∧
  ∀ (nnn : BitVec 12) (s : State), ∃ t, exec (.jpV0 nnn) s = .next t ∧
    t.pc.toNat = nnn.toNat + (s.reg 0).toNat ∧ t = { s with pc := t.pc }

/-- R106, R107, R108, R109: a skip adds 2 to PC when its condition holds and changes
nothing else. -/
def Obligations.SkipsAddTwoToPc : Prop :=
  RowDecodesAs 0xF000 0x3000 (fun w => .seImm (fieldX w) (fieldKK w)) ∧
  RowDecodesAs 0xF000 0x4000 (fun w => .sneImm (fieldX w) (fieldKK w)) ∧
  RowDecodesAs 0xF00F 0x5000 (fun w => .seReg (fieldX w) (fieldY w)) ∧
  RowDecodesAs 0xF00F 0x9000 (fun w => .sneReg (fieldX w) (fieldY w)) ∧
  ∀ (x y : Reg) (kk : Byte) (s : State),
    exec (.seImm x kk) s = .next { s with pc := if (s.reg x).toNat = kk.toNat then s.pc + 2 else s.pc } ∧
    exec (.sneImm x kk) s = .next { s with pc := if (s.reg x).toNat = kk.toNat then s.pc else s.pc + 2 } ∧
    exec (.seReg x y) s =
      .next { s with pc := if (s.reg x).toNat = (s.reg y).toNat then s.pc + 2 else s.pc } ∧
    exec (.sneReg x y) s =
      .next { s with pc := if (s.reg x).toNat = (s.reg y).toNat then s.pc else s.pc + 2 }

/-- Section "2nnn CALL" of 41_control_flow.md (decision D7: log 6): with a free slot, CALL pushes PC, which is the
address after the CALL, and jumps; with none it raises StackOverflow and changes nothing else. -/
def Obligations.CallPushesTheReturnAddress : Prop :=
  (∀ (nnn : BitVec 12) (s : State), s.sp.val < 16 → ∃ t, exec (.call nnn) s = .next t ∧
    (∀ j : Fin 16, t.stack[j.val] = if j.val = s.sp.val then s.pc else s.stack[j.val]) ∧
    t.sp.val = s.sp.val + 1 ∧ t.pc.toNat = nnn.toNat ∧
    t = { s with stack := t.stack, sp := t.sp, pc := t.pc }) ∧
  (∀ (nnn : BitVec 12) (s : State), s.sp.val = 16 → ∃ t, exec (.call nnn) s = .next t ∧
    t.pc + 2 = s.pc ∧ faultCode t.fault = 4 ∧ t = { s with pc := t.pc, fault := t.fault })

/-- Section "00EE RET" of 41_control_flow.md (decision D7: log 6): with a slot occupied, RET pops it into PC and
does not clear it; with none it raises StackUnderflow and changes nothing else. -/
def Obligations.ReturnPopsIntoPc : Prop :=
  (∀ s : State, 0 < s.sp.val → ∃ t, exec .ret s = .next t ∧
    t.sp.val + 1 = s.sp.val ∧ (∀ j : Fin 16, j.val = t.sp.val → t.pc = s.stack[j.val]) ∧
    t = { s with sp := t.sp, pc := t.pc }) ∧
  (∀ s : State, s.sp.val = 0 → ∃ t, exec .ret s = .next t ∧
    t.pc + 2 = s.pc ∧ faultCode t.fault = 5 ∧ t = { s with pc := t.pc, fault := t.fault })

/-- Section "00EE RET" of 41_control_flow.md: a RET after a CALL, whatever has happened in between that leaves
the stack and SP as the CALL left them, comes back to the instruction after the CALL with SP as it was. -/
def Obligations.ReturnUndoesCall : Prop :=
  ∀ (nnn : BitVec 12) (s t u : State), s.sp.val < 16 → exec (.call nnn) s = .next t →
    u.stack = t.stack → u.sp = t.sp → ∃ r, exec .ret u = .next r ∧ r.pc = s.pc ∧ r.sp = s.sp ∧
      r = { u with pc := r.pc, sp := r.sp }

/-! ### Load, arithmetic, logic, shift, random -/

/-- R120: 6xkk. -/
def Obligations.LoadImmediateSetsVx : Prop :=
  RowDecodesAs 0xF000 0x6000 (fun w => .ldImm (fieldX w) (fieldKK w)) ∧
  ∀ (x : Reg) (kk : Byte) (s : State), ∃ t, exec (.ldImm x kk) s = .next t ∧
    (∀ r : Reg, t.reg r = if r = x then kk else s.reg r) ∧ t = { s with v := t.v }

/-- R121: 7xkk wraps modulo 256 and writes no flag. -/
def Obligations.AddImmediateWraps : Prop :=
  RowDecodesAs 0xF000 0x7000 (fun w => .addImm (fieldX w) (fieldKK w)) ∧
  ∀ (x : Reg) (kk : Byte) (s : State), ∃ t, exec (.addImm x kk) s = .next t ∧
    (t.reg x).toNat = ((s.reg x).toNat + kk.toNat) % 256 ∧
    (∀ r : Reg, r ≠ x → t.reg r = s.reg r) ∧ t = { s with v := t.v }

/-- R122, R123, R124, R125: copy and the bitwise operations; VF is not written as a flag. -/
def Obligations.CopyAndLogicWriteVxAlone : Prop :=
  RowDecodesAs 0xF00F 0x8000 (fun w => .ldReg (fieldX w) (fieldY w)) ∧
  RowDecodesAs 0xF00F 0x8001 (fun w => .or (fieldX w) (fieldY w)) ∧
  RowDecodesAs 0xF00F 0x8002 (fun w => .and (fieldX w) (fieldY w)) ∧
  RowDecodesAs 0xF00F 0x8003 (fun w => .xor (fieldX w) (fieldY w)) ∧
  ∀ (x y : Reg) (s : State),
    (∃ t, exec (.ldReg x y) s = .next t ∧
      (∀ r : Reg, t.reg r = if r = x then s.reg y else s.reg r) ∧ t = { s with v := t.v }) ∧
    (∃ t, exec (.or x y) s = .next t ∧
      (∀ r : Reg, t.reg r = if r = x then s.reg x ||| s.reg y else s.reg r) ∧ t = { s with v := t.v }) ∧
    (∃ t, exec (.and x y) s = .next t ∧
      (∀ r : Reg, t.reg r = if r = x then s.reg x &&& s.reg y else s.reg r) ∧ t = { s with v := t.v }) ∧
    (∃ t, exec (.xor x y) s = .next t ∧
      (∀ r : Reg, t.reg r = if r = x then s.reg x ^^^ s.reg y else s.reg r) ∧ t = { s with v := t.v })

/-- Section "8xy4 ADD Vx, Vy" of 42_load_alu.md: the sum modulo 256, then VF the carry; with x = F the flag is what
stays (order of writes: decision D12, log 8). -/
def Obligations.AddSetsCarry : Prop :=
  RowDecodesAs 0xF00F 0x8004 (fun w => .addReg (fieldX w) (fieldY w)) ∧
  ∀ (x y : Reg) (s : State), ∃ t, exec (.addReg x y) s = .next t ∧
    (t.reg 15).toNat = (if (s.reg x).toNat + (s.reg y).toNat > 255 then 1 else 0) ∧
    (x ≠ 15 → (t.reg x).toNat = ((s.reg x).toNat + (s.reg y).toNat) % 256) ∧
    (∀ r : Reg, r ≠ x → r ≠ 15 → t.reg r = s.reg r) ∧ t = { s with v := t.v }

/-- Sections "8xy5 SUB" and "8xy7 SUBN" of 42_load_alu.md (equal operands: decision D13, log 10; order of writes:
decision D12, log 8): the difference modulo 256, then VF = 1 iff there is no borrow. -/
def Obligations.SubtractSetsNoBorrow : Prop :=
  ∀ (x y : Reg) (s : State),
    (∃ t, exec (.sub x y) s = .next t ∧
      (t.reg 15).toNat = (if (s.reg x).toNat ≥ (s.reg y).toNat then 1 else 0) ∧
      (x ≠ 15 → (t.reg x).toNat = ((s.reg x).toNat + 256 - (s.reg y).toNat) % 256) ∧
      (∀ r : Reg, r ≠ x → r ≠ 15 → t.reg r = s.reg r) ∧ t = { s with v := t.v }) ∧
    (∃ t, exec (.subn x y) s = .next t ∧
      (t.reg 15).toNat = (if (s.reg y).toNat ≥ (s.reg x).toNat then 1 else 0) ∧
      (x ≠ 15 → (t.reg x).toNat = ((s.reg y).toNat + 256 - (s.reg x).toNat) % 256) ∧
      (∀ r : Reg, r ≠ x → r ≠ 15 → t.reg r = s.reg r) ∧ t = { s with v := t.v })

/-- Sections "8xy6 SHR" and "8xyE SHL" of 42_load_alu.md (x = F: decision D12, log 8): VF first takes the bit
shifted out, then Vx is shifted as it stands; `y` has no influence. -/
def Obligations.ShiftsMoveTheLostBitToVf : Prop :=
  ∀ (x y : Reg) (s : State),
    (∃ t, exec (.shr x y) s = .next t ∧
      (x ≠ 15 → (t.reg x).toNat = (s.reg x).toNat / 2 ∧ (t.reg 15).toNat = (s.reg x).toNat % 2) ∧
      (x = 15 → t.reg 15 = 0) ∧
      (∀ r : Reg, r ≠ x → r ≠ 15 → t.reg r = s.reg r) ∧ t = { s with v := t.v } ∧
      ∀ y' : Reg, exec (.shr x y') s = .next t) ∧
    (∃ t, exec (.shl x y) s = .next t ∧
      (x ≠ 15 → (t.reg x).toNat = (s.reg x).toNat * 2 % 256 ∧ (t.reg 15).toNat = (s.reg x).toNat / 128) ∧
      (x = 15 → (t.reg 15).toNat = if (s.reg 15).toNat ≥ 128 then 2 else 0) ∧
      (∀ r : Reg, r ≠ x → r ≠ 15 → t.reg r = s.reg r) ∧ t = { s with v := t.v } ∧
      ∀ y' : Reg, exec (.shl x y') s = .next t)

/-- Section "Cxkk RND" of 42_load_alu.md (rnd as an input of the tick: decision D20, log 1): Vx becomes the tick's
random byte AND kk, for every random byte, and no bit outside kk is set. -/
def Obligations.RandomIsMaskedByKk : Prop :=
  ∀ (x : Reg) (kk : Byte) (s : State), ∃ t, exec (.rnd x kk) s = .next t ∧
    (∀ r : Reg, t.reg r = if r = x then s.port.rnd &&& kk else s.reg r) ∧
    t.reg x &&& ~~~kk = 0 ∧ t = { s with v := t.v }

/-! ### Index register and data memory -/

/-- R140: Annn. -/
def Obligations.LoadIndexSetsI : Prop :=
  RowDecodesAs 0xF000 0xA000 (fun w => .ldI (fieldNNN w)) ∧
  ∀ (nnn : BitVec 12) (s : State), ∃ t, exec (.ldI nnn) s = .next t ∧
    t.i.toNat = nnn.toNat ∧ t = { s with i := t.i }

/-- Section "Fx1E ADD I" of 43_index_memory.md (the wrap at 65536: decision D10, log 11): no flag is written. -/
def Obligations.AddIndexWrapsAt65536 : Prop :=
  ∀ (x : Reg) (s : State), ∃ t, exec (.addI x) s = .next t ∧
    t.i.toNat = (s.i.toNat + (s.reg x).toNat) % 65536 ∧ t = { s with i := t.i }

/-- Section "Fx29 LD F" of 43_index_memory.md (Vx is not reduced to its low nibble: decision D28, log 28). -/
def Obligations.FontAddressIsFiveTimesVx : Prop :=
  RowDecodesAs 0xF0FF 0xF029 (fun w => .ldF (fieldX w)) ∧
  ∀ (x : Reg) (s : State), ∃ t, exec (.ldF x) s = .next t ∧
    t.i.toNat = (s.reg x).toNat * 5 ∧ t = { s with i := t.i }

/-- Section "Fx33 LD B" of 43_index_memory.md (decisions D6, D9, D15: log 6, log 28): the three digits at I, I+1 and
I+2; every other byte, I and every register unchanged. -/
def Obligations.BcdStoresThreeDigits : Prop :=
  ∀ (x : Reg) (s : State), s.i.toNat + 2 ≤ 0xFFF → ∃ t, exec (.ldB x) s = .next t ∧
    (t.mem.read (indexBase s)).toNat = (s.reg x).toNat / 100 ∧
    (t.mem.read (indexBase s + 1)).toNat = (s.reg x).toNat / 10 % 10 ∧
    (t.mem.read (indexBase s + 2)).toNat = (s.reg x).toNat % 10 ∧
    (∀ a : Nat, a < indexBase s ∨ indexBase s + 2 < a → t.mem.read a = s.mem.read a) ∧
    t.mem.font = s.mem.font ∧ t = { s with mem := t.mem }

/-- Section "Fx55 LD [I], Vx" of 43_index_memory.md (decisions D6, D9, D15: log 6, log 28): V0..Vx at I.., x + 1
bytes; every other byte, I and every register unchanged. -/
def Obligations.BlockStoreCopiesRegisters : Prop :=
  ∀ (x : Reg) (s : State), s.i.toNat + x.val ≤ 0xFFF → ∃ t, exec (.ldMemVx x) s = .next t ∧
    (∀ r : Reg, r ≤ x → t.mem.read (indexBase s + r.val) = s.reg r) ∧
    (∀ a : Nat, a < indexBase s ∨ indexBase s + x.val < a → t.mem.read a = s.mem.read a) ∧
    t.mem.font = s.mem.font ∧ t = { s with mem := t.mem }

/-- Section "Fx65 LD Vx, [I]" of 43_index_memory.md (decisions D6, D9, D15: log 6, log 28): V0..Vx from I..; every
other register, I and memory unchanged. -/
def Obligations.BlockLoadCopiesMemory : Prop :=
  ∀ (x : Reg) (s : State), s.i.toNat + x.val ≤ 0xFFF → ∃ t, exec (.ldVxMem x) s = .next t ∧
    (∀ r : Reg, t.reg r = if r ≤ x then s.mem.read (s.i.toNat + r.val) else s.reg r) ∧
    t = { s with v := t.v }

/-- Section 10 of 20_memory.md, its table (decisions D6, D9: log 6): a data access that would pass 0xFFF raises its
fault with no partial effect: PC back at the instruction, nothing else changed. -/
def Obligations.DataBeyondMemoryFaults : Prop :=
  ∀ s : State,
    (∀ x : Reg, s.i.toNat + 2 > 0xFFF → ∃ t, exec (.ldB x) s = .next t ∧
      t.pc + 2 = s.pc ∧ faultCode t.fault = 3 ∧ t = { s with pc := t.pc, fault := t.fault }) ∧
    (∀ x : Reg, s.i.toNat + x.val > 0xFFF → ∃ t, exec (.ldMemVx x) s = .next t ∧
      t.pc + 2 = s.pc ∧ faultCode t.fault = 3 ∧ t = { s with pc := t.pc, fault := t.fault }) ∧
    (∀ x : Reg, s.i.toNat + x.val > 0xFFF → ∃ t, exec (.ldVxMem x) s = .next t ∧
      t.pc + 2 = s.pc ∧ faultCode t.fault = 2 ∧ t = { s with pc := t.pc, fault := t.fault }) ∧
    (∀ (x y : Reg) (n : Nat), 1 ≤ n → s.i.toNat + n - 1 > 0xFFF → ∃ t, exec (.drw x y n) s = .next t ∧
      t.pc + 2 = s.pc ∧ faultCode t.fault = 2 ∧ t = { s with pc := t.pc, fault := t.fault })

/-! ### Display -/

/-- R160: 00E0 turns every cell off and writes nothing else, VF included. -/
def Obligations.ClearTurnsEveryCellOff : Prop :=
  RowDecodesAs 0xFFFF 0x00E0 (fun _ => .cls) ∧
  ∀ s : State, ∃ t, exec .cls s = .next t ∧
    (∀ (r : Fin 32) (c : Fin 64), t.disp.cell r c = false) ∧ t = { s with disp := t.disp }

/-- Section "Properties of the compositor" of 44_display.md, which the spec marks as derived (coordinates read before
VF is cleared: decision D14, log 12): a draw within memory is an exact XOR of the sprite against the display, VF
tells whether some on cell met a set bit, also when n = 0, and nothing else changes. -/
def Obligations.DrawIsAnExactXor : Prop :=
  ∀ (x y : Reg) (n : Nat) (s : State), (Instr.drw x y n).wellFormed = true →
    (n = 0 ∨ s.i.toNat + n - 1 ≤ 0xFFF) → ∃ t, exec (.drw x y n) s = .next t ∧
      (∀ (r : Fin 32) (c : Fin 64),
        (SpriteCovers s x y n r c → t.disp.cell r c = !s.disp.cell r c) ∧
        (¬ SpriteCovers s x y n r c → t.disp.cell r c = s.disp.cell r c)) ∧
      ((∃ (r : Fin 32) (c : Fin 64), s.disp.cell r c = true ∧ SpriteCovers s x y n r c) →
        t.reg 15 = 1) ∧
      ((∀ (r : Fin 32) (c : Fin 64), s.disp.cell r c = true → ¬ SpriteCovers s x y n r c) →
        t.reg 15 = 0) ∧
      (∀ r : Reg, r ≠ 15 → t.reg r = s.reg r) ∧ t = { s with v := t.v, disp := t.disp }

/-- The double-draw law of 44_display.md, which the spec marks as derived: the same sprite drawn twice at the same
place, with coordinates not in VF, restores the display, and the second VF is 1 exactly when a set bit found its
cell off before the first draw. -/
def Obligations.DrawingTwiceRestoresTheDisplay : Prop :=
  ∀ (x y : Reg) (n : Nat) (s t u : State), (Instr.drw x y n).wellFormed = true →
    (n = 0 ∨ s.i.toNat + n - 1 ≤ 0xFFF) → x ≠ 15 → y ≠ 15 →
    exec (.drw x y n) s = .next t → exec (.drw x y n) t = .next u →
      u.disp = s.disp ∧
      (u.reg 15 = 1 ↔ ∃ (r : Fin 32) (c : Fin 64), SpriteCovers s x y n r c ∧ s.disp.cell r c = false)

/-! ### Keys and timers -/

/-- Sections "Ex9E SKP" and "ExA1 SKNP" of 45_input_timers.md: with Vx at most 15 the key flag of the latched
snapshot decides the skip; with Vx above 15 KeyIndex is raised (decision D8: log 6). -/
def Obligations.KeySkipsTestTheLatchedFlag : Prop :=
  (∀ (x : Reg) (s : State) (k : Reg), (s.reg x).toNat = k.val →
    exec (.skp x) s = .next { s with pc := if s.keys[k.val] = true then s.pc + 2 else s.pc } ∧
    exec (.sknp x) s = .next { s with pc := if s.keys[k.val] = true then s.pc else s.pc + 2 }) ∧
  (∀ (x : Reg) (s : State), (s.reg x).toNat > 15 → ∃ t,
    exec (.skp x) s = .next t ∧ exec (.sknp x) s = .next t ∧
    t.pc + 2 = s.pc ∧ faultCode t.fault = 6 ∧ t = { s with pc := t.pc, fault := t.fault })

/-- R172: Fx07 reads DT as the previous tick left it; the tick's own decrement comes afterwards. -/
def Obligations.ReadTimerBeforeItsDecrement : Prop :=
  RowDecodesAs 0xF0FF 0xF007 (fun w => .ldVxDt (fieldX w)) ∧
  (∀ (x : Reg) (s : State), ∃ t, exec (.ldVxDt x) s = .next t ∧
    (∀ r : Reg, t.reg r = if r = x then s.dt else s.reg r) ∧ t = { s with v := t.v }) ∧
  (∀ (x : Reg) (s : State), FetchesInstr s (.ldVxDt x) → ∃ t, step s = .next t ∧
    t.reg x = s.dt ∧ t.dt.toNat = s.dt.toNat - 1)

/-- Sections "Fx15" and "Fx18" of 45_input_timers.md, whose end-of-tick values the spec marks as derived: the timer
takes Vx, the timer step of the same tick counts it down once, and Fx18 asserts `tone` in its own tick exactly
when Vx is above 0. -/
def Obligations.WrittenTimerCountsDownInItsOwnTick : Prop :=
  (∀ (x : Reg) (s : State),
    exec (.ldDtVx x) s = .next { s with dt := s.reg x } ∧
    exec (.ldStVx x) s = .next { s with st := s.reg x }) ∧
  (∀ (x : Reg) (s : State), FetchesInstr s (.ldDtVx x) → ∃ t, step s = .next t ∧
    t.dt.toNat = (s.reg x).toNat - 1 ∧ t.st.toNat = s.st.toNat - 1) ∧
  (∀ (x : Reg) (s : State), FetchesInstr s (.ldStVx x) → ∃ t, step s = .next t ∧
    t.st.toNat = (s.reg x).toNat - 1 ∧ t.dt.toNat = s.dt.toNat - 1 ∧
    (t.port.tone = true ↔ (s.reg x).toNat > 0))

/-- Section "Fx0A LD Vx, K" of 45_input_timers.md: Fx0A sets `waiting` and `keyreg` and does nothing else: PC stays past it, Vx is not written, the timer step
of its tick runs. -/
def Obligations.KeyWaitIsEnteredNotStalled : Prop :=
  RowDecodesAs 0xF0FF 0xF00A (fun w => .ldVxK (fieldX w)) ∧
  (∀ (x : Reg) (s : State), exec (.ldVxK x) s = .next { s with waiting := true, keyreg := x }) ∧
  (∀ (x : Reg) (s : State), FetchesInstr s (.ldVxK x) → ∃ t, step s = .next t ∧
    t.waiting = true ∧ t.keyreg = x ∧ t.pc = s.pc + 2 ∧ t.v = s.v ∧
    t.dt.toNat = s.dt.toNat - 1 ∧ t.st.toNat = s.st.toNat - 1)

/-- Section "Laws of the timers as a program sees them" of 45_input_timers.md, which the spec marks as derived: over
any run none of whose ticks executes Fx15, DT falls by the number of executing ticks in it and stops at 0; the
same of ST and Fx18. Wait, resume and dead ticks do not count (decision D5: log 9), nor does the tick that raises
a fault, which is abandoned (decision D9: log 6). A run of completing ticks alone counts every tick. -/
def Obligations.TimersDecayByExecutingTicks : Prop :=
  ∀ (n : Nat) (s : State), (∃ t, Sys2Proof.core.run n s = .next t ∧
    (HoldsFor LeavesDt n s → t.dt.toNat = s.dt.toNat - completedTicks n s) ∧
    (HoldsFor LeavesSt n s → t.st.toNat = s.st.toNat - completedTicks n s)) ∧
    (HoldsFor (fun u => u.completes = true) n s → completedTicks n s = n)

/-! ### The end of a run -/

/-- Section 5 of 70_reset_and_hazards.md (decision D24): from a parked state every later tick leaves everything
unchanged but DT and ST, which count down to 0, and `keys`. -/
def Obligations.ParkedStateStaysParked : Prop :=
  ∀ (n : Nat) (s : State), Parked s → ∃ t, Sys2Proof.core.run n s = .next t ∧ Parked t ∧
    t.dt.toNat = s.dt.toNat - n ∧ t.st.toNat = s.st.toNat - n ∧
    t = { s with dt := t.dt, st := t.st, keys := t.keys, port := t.port }
end

