-- ==== Sys2Proof/Laws/Decode.lean ====
section
/-! SUPPORT. Decoding and encoding: the rows of the opcode table are pairwise disjoint (30_encoding.md rule
R64), so a word of a row decodes to that row's instruction; and the fields of the words the encoder makes. -/

namespace Sys2Proof

/-! ### The table -/

/-- Two rows share no word: they differ on a bit that both fix (R64). -/
abbrev RowsDisjoint (r r' : OpcodeRow) : Prop := r.pattern &&& r'.mask ≠ r'.pattern &&& r.mask

theorem opcodeTable_disjoint : opcodeTable.Pairwise RowsDisjoint := by decide

/-- The table has 34 rows (R68). -/
theorem opcodeTable_length : opcodeTable.length = 34 := by decide

theorem matches_iff (row : OpcodeRow) (w : Word) :
    row.matches w = true ↔ w &&& row.mask = row.pattern := by simp [OpcodeRow.matches]

theorem not_both_match {r r' : OpcodeRow} (h : RowsDisjoint r r') {w : Word}
    (hr : w &&& r.mask = r.pattern) (hr' : w &&& r'.mask = r'.pattern) : False := by
  apply h
  rw [← hr, ← hr', BitVec.and_assoc, BitVec.and_assoc, BitVec.and_comm r.mask]

theorem find_row_of_disjoint {rows : List OpcodeRow} (hd : rows.Pairwise RowsDisjoint)
    {row : OpcodeRow} (hm : row ∈ rows) {w : Word} (hw : w &&& row.mask = row.pattern) :
    rows.find? (fun r => r.matches w) = some row := by
  induction rows with
  | nil => simp at hm
  | cons r rows ih =>
    rw [List.pairwise_cons] at hd
    rcases List.mem_cons.1 hm with rfl | hm
    · simp [(matches_iff _ _).2 hw]
    · have : r.matches w = false := by
        rw [Bool.eq_false_iff, Ne, matches_iff]
        exact fun h => not_both_match (hd.1 row hm) h hw
      rw [List.find?_cons, this]
      exact ih hd.2 hm

/-- A word of a row decodes to the row's instruction. -/
theorem decodeWord_of_row {row : OpcodeRow} (hm : row ∈ opcodeTable) {w : Word}
    (hw : w &&& row.mask = row.pattern) : decodeWord w = some (row.build w) := by
  simp [decodeWord, find_row_of_disjoint opcodeTable_disjoint hm hw]

/-- A word that decodes is a word of some row. -/
theorem row_of_decodeWord {w : Word} {i : Instr} (h : decodeWord w = some i) :
    ∃ row ∈ opcodeTable, w &&& row.mask = row.pattern ∧ row.build w = i := by
  unfold decodeWord at h
  split at h
  · next row hrow =>
    exact ⟨row, List.mem_of_find?_eq_some hrow,
      (matches_iff row w).1 (List.find?_some (p := fun r : OpcodeRow => r.matches w) hrow), by simpa using h⟩
  · cases h

/-- A word decodes to nothing exactly when no row matches it. -/
theorem decodeWord_eq_none {w : Word} :
    decodeWord w = none ↔ ∀ row ∈ opcodeTable, w &&& row.mask ≠ row.pattern := by
  constructor
  · intro h row hm hw
    rw [decodeWord_of_row hm hw] at h
    cases h
  · intro h
    rw [← Option.not_isSome_iff_eq_none, Option.isSome_iff_exists]
    rintro ⟨i, hi⟩
    obtain ⟨row, hm, hw, -⟩ := row_of_decodeWord hi
    exact h row hm hw

/-! ### Register nibbles -/

@[simp] theorem regOfNibble_nibbleOfReg (r : Reg) : regOfNibble (nibbleOfReg r) = r := by
  ext; simp [regOfNibble, nibbleOfReg]

@[simp] theorem nibbleOfReg_regOfNibble (b : BitVec 4) : nibbleOfReg (regOfNibble b) = b := by
  apply BitVec.eq_of_toNat_eq
  simp [regOfNibble, nibbleOfReg]

/-! ### The bits of a word, nibble by nibble -/

/-- A word is its four nibbles (R8). -/
theorem word_eq_nibbles (w : Word) :
    w.extractLsb' 12 4 ++ w.extractLsb' 8 4 ++ w.extractLsb' 4 4 ++ w.extractLsb' 0 4 = w := by
  apply BitVec.eq_of_getLsbD_eq
  intro i hi
  simp only [BitVec.getLsbD_extractLsb', BitVec.getLsbD_append]
  interval_cases i <;> simp

theorem nibbles_n1 (a b c d : BitVec 4) :
    (a ++ b ++ c ++ d : Word).extractLsb' 12 4 = a := by
  apply BitVec.eq_of_getLsbD_eq
  intro i hi
  simp only [BitVec.getLsbD_extractLsb', BitVec.getLsbD_append]
  interval_cases i <;> simp

theorem nibbles_n2 (a b c d : BitVec 4) :
    (a ++ b ++ c ++ d : Word).extractLsb' 8 4 = b := by
  apply BitVec.eq_of_getLsbD_eq
  intro i hi
  simp only [BitVec.getLsbD_extractLsb', BitVec.getLsbD_append]
  interval_cases i <;> simp

theorem nibbles_n3 (a b c d : BitVec 4) :
    (a ++ b ++ c ++ d : Word).extractLsb' 4 4 = c := by
  apply BitVec.eq_of_getLsbD_eq
  intro i hi
  simp only [BitVec.getLsbD_extractLsb', BitVec.getLsbD_append]
  interval_cases i <;> simp

theorem nibbles_n4 (a b c d : BitVec 4) :
    (a ++ b ++ c ++ d : Word).extractLsb' 0 4 = d := by
  apply BitVec.eq_of_getLsbD_eq
  intro i hi
  simp only [BitVec.getLsbD_extractLsb', BitVec.getLsbD_append]
  interval_cases i <;> simp

theorem nibbles_kk (a b c d : BitVec 4) :
    (a ++ b ++ c ++ d : Word).extractLsb' 0 8 = c ++ d := by
  apply BitVec.eq_of_getLsbD_eq
  intro i hi
  simp only [BitVec.getLsbD_extractLsb', BitVec.getLsbD_append]
  interval_cases i <;> simp

theorem nibbles_nnn (a b c d : BitVec 4) :
    (a ++ b ++ c ++ d : Word).extractLsb' 0 12 = b ++ c ++ d := by
  apply BitVec.eq_of_getLsbD_eq
  intro i hi
  simp only [BitVec.getLsbD_extractLsb', BitVec.getLsbD_append]
  interval_cases i <;> simp

theorem nibbles_and_F000 (a b c d : BitVec 4) :
    (a ++ b ++ c ++ d : Word) &&& 0xF000 = a ++ 0#4 ++ 0#4 ++ 0#4 := by
  apply BitVec.eq_of_getLsbD_eq
  intro i hi
  simp only [BitVec.getLsbD_and, BitVec.getLsbD_append]
  interval_cases i <;> simp

theorem nibbles_and_F00F (a b c d : BitVec 4) :
    (a ++ b ++ c ++ d : Word) &&& 0xF00F = a ++ 0#4 ++ 0#4 ++ d := by
  apply BitVec.eq_of_getLsbD_eq
  intro i hi
  simp only [BitVec.getLsbD_and, BitVec.getLsbD_append]
  interval_cases i <;> simp

theorem nibbles_and_F0FF (a b c d : BitVec 4) :
    (a ++ b ++ c ++ d : Word) &&& 0xF0FF = a ++ 0#4 ++ c ++ d := by
  apply BitVec.eq_of_getLsbD_eq
  intro i hi
  simp only [BitVec.getLsbD_and, BitVec.getLsbD_append]
  interval_cases i <;> simp

/-- An address is its three nibbles. -/
theorem nnn_eq_nibbles (b : BitVec 12) :
    b.extractLsb' 8 4 ++ b.extractLsb' 4 4 ++ b.extractLsb' 0 4 = b := by
  apply BitVec.eq_of_getLsbD_eq
  intro i hi
  simp only [BitVec.getLsbD_extractLsb', BitVec.getLsbD_append]
  interval_cases i <;> simp

/-- A byte is its two nibbles. -/
theorem kk_eq_nibbles (b : Byte) : b.extractLsb' 4 4 ++ b.extractLsb' 0 4 = b := by
  apply BitVec.eq_of_getLsbD_eq
  intro i hi
  simp only [BitVec.getLsbD_extractLsb', BitVec.getLsbD_append]
  interval_cases i <;> simp

theorem wordNNN_nibbles (c : BitVec 4) (nnn : BitVec 12) :
    wordNNN c nnn =
      c ++ nnn.extractLsb' 8 4 ++ nnn.extractLsb' 4 4 ++ nnn.extractLsb' 0 4 := by
  apply BitVec.eq_of_getLsbD_eq
  intro i hi
  simp only [wordNNN, BitVec.getLsbD_extractLsb', BitVec.getLsbD_append]
  interval_cases i <;> simp

theorem wordXKK_nibbles (c : BitVec 4) (x : Reg) (kk : Byte) :
    wordXKK c x kk = c ++ nibbleOfReg x ++ kk.extractLsb' 4 4 ++ kk.extractLsb' 0 4 := by
  apply BitVec.eq_of_getLsbD_eq
  intro i hi
  simp only [wordXKK, BitVec.getLsbD_extractLsb', BitVec.getLsbD_append]
  interval_cases i <;> simp

/-! ### The fields and fixed bits of the words the encoder makes -/

@[simp] theorem fieldNNN_wordNNN (c : BitVec 4) (nnn : BitVec 12) : fieldNNN (wordNNN c nnn) = nnn := by
  rw [fieldNNN, wordNNN_nibbles, nibbles_nnn, nnn_eq_nibbles]

@[simp] theorem fieldX_wordXKK (c : BitVec 4) (x : Reg) (kk : Byte) : fieldX (wordXKK c x kk) = x := by
  rw [fieldX, wordXKK_nibbles, nibbles_n2, regOfNibble_nibbleOfReg]

@[simp] theorem fieldKK_wordXKK (c : BitVec 4) (x : Reg) (kk : Byte) : fieldKK (wordXKK c x kk) = kk := by
  rw [fieldKK, wordXKK_nibbles, nibbles_kk, kk_eq_nibbles]

@[simp] theorem fieldX_wordXYC (c : BitVec 4) (x y : Reg) (c' : BitVec 4) :
    fieldX (wordXYC c x y c') = x := by
  rw [fieldX, wordXYC, nibbles_n2, regOfNibble_nibbleOfReg]

@[simp] theorem fieldY_wordXYC (c : BitVec 4) (x y : Reg) (c' : BitVec 4) :
    fieldY (wordXYC c x y c') = y := by
  rw [fieldY, wordXYC, nibbles_n3, regOfNibble_nibbleOfReg]

@[simp] theorem fieldN_wordXYC (c : BitVec 4) (x y : Reg) (c' : BitVec 4) :
    fieldN (wordXYC c x y c') = c'.toNat := by
  rw [fieldN, wordXYC, nibbles_n4]

@[simp] theorem fieldX_wordXCC (c : BitVec 4) (x : Reg) (cc : Byte) : fieldX (wordXCC c x cc) = x :=
  fieldX_wordXKK c x cc

theorem wordNNN_and (c : BitVec 4) (nnn : BitVec 12) :
    wordNNN c nnn &&& 0xF000 = c ++ 0#4 ++ 0#4 ++ 0#4 := by
  rw [wordNNN_nibbles, nibbles_and_F000]

theorem wordXKK_and (c : BitVec 4) (x : Reg) (kk : Byte) :
    wordXKK c x kk &&& 0xF000 = c ++ 0#4 ++ 0#4 ++ 0#4 := by
  rw [wordXKK_nibbles, nibbles_and_F000]

theorem wordXYN_and (c : BitVec 4) (x y : Reg) (n : BitVec 4) :
    wordXYC c x y n &&& 0xF000 = c ++ 0#4 ++ 0#4 ++ 0#4 := by
  rw [wordXYC, nibbles_and_F000]

theorem wordXYC_and (c : BitVec 4) (x y : Reg) (c' : BitVec 4) :
    wordXYC c x y c' &&& 0xF00F = c ++ 0#4 ++ 0#4 ++ c' := by
  rw [wordXYC, nibbles_and_F00F]

theorem wordXCC_and (c : BitVec 4) (x : Reg) (cc : Byte) :
    wordXCC c x cc &&& 0xF0FF = c ++ 0#4 ++ cc.extractLsb' 4 4 ++ cc.extractLsb' 0 4 := by
  show wordXKK c x cc &&& 0xF0FF = _
  rw [wordXKK_nibbles, nibbles_and_F0FF]

/-! ### A word is rebuilt from its fixed bits and its fields -/

theorem and_F000_eq {w : Word} {c : BitVec 4} (h : w &&& 0xF000 = c ++ 0#4 ++ 0#4 ++ 0#4) :
    w.extractLsb' 12 4 = c := by
  rw [← word_eq_nibbles w, nibbles_and_F000] at h
  have := congrArg (fun u : Word => u.extractLsb' 12 4) h
  simpa only [nibbles_n1] using this

theorem and_F00F_eq {w : Word} {c c' : BitVec 4} (h : w &&& 0xF00F = c ++ 0#4 ++ 0#4 ++ c') :
    w.extractLsb' 12 4 = c ∧ w.extractLsb' 0 4 = c' := by
  rw [← word_eq_nibbles w, nibbles_and_F00F] at h
  have h1 := congrArg (fun u : Word => u.extractLsb' 12 4) h
  have h4 := congrArg (fun u : Word => u.extractLsb' 0 4) h
  simp only [nibbles_n1, nibbles_n4] at h1 h4
  exact ⟨h1, h4⟩

theorem and_F0FF_eq {w : Word} {c : BitVec 4} {cc : Byte}
    (h : w &&& 0xF0FF = c ++ 0#4 ++ cc.extractLsb' 4 4 ++ cc.extractLsb' 0 4) :
    w.extractLsb' 12 4 = c ∧ w.extractLsb' 0 8 = cc := by
  rw [← word_eq_nibbles w, nibbles_and_F0FF] at h
  have h1 := congrArg (fun u : Word => u.extractLsb' 12 4) h
  have h4 := congrArg (fun u : Word => u.extractLsb' 0 8) h
  simp only [nibbles_n1, nibbles_kk, kk_eq_nibbles] at h1 h4
  refine ⟨h1, ?_⟩
  rw [← word_eq_nibbles w, nibbles_kk, h4]

theorem wordNNN_fields (w : Word) : wordNNN (w.extractLsb' 12 4) (fieldNNN w) = w := by
  apply BitVec.eq_of_getLsbD_eq
  intro i hi
  simp only [wordNNN, fieldNNN, BitVec.getLsbD_extractLsb', BitVec.getLsbD_append]
  interval_cases i <;> simp

theorem wordXKK_fields (w : Word) : wordXKK (w.extractLsb' 12 4) (fieldX w) (fieldKK w) = w := by
  rw [wordXKK, fieldX, nibbleOfReg_regOfNibble]
  apply BitVec.eq_of_getLsbD_eq
  intro i hi
  simp only [fieldKK, BitVec.getLsbD_extractLsb', BitVec.getLsbD_append]
  interval_cases i <;> simp

theorem wordXYC_fields (w : Word) :
    wordXYC (w.extractLsb' 12 4) (fieldX w) (fieldY w) (w.extractLsb' 0 4) = w := by
  rw [wordXYC, fieldX, fieldY, nibbleOfReg_regOfNibble, nibbleOfReg_regOfNibble, word_eq_nibbles]

theorem wordXCC_fields (w : Word) :
    wordXCC (w.extractLsb' 12 4) (fieldX w) (w.extractLsb' 0 8) = w := wordXKK_fields w

/-! ### Bytes -/

/-- The word of two bytes, as a number: the byte at the lower address counts 256 (R42). -/
theorem wordOfBytes_toNat (high low : Byte) :
    (wordOfBytes high low).toNat = high.toNat * 256 + low.toNat := by
  have := low.isLt
  rw [wordOfBytes, BitVec.toNat_append, Nat.shiftLeft_eq, Nat.mul_comm,
    ← Nat.two_pow_add_eq_or_of_lt (by simpa using this)]

/-- The bytes of a word, put together again, are the word. -/
theorem wordOfBytes_of_word (w : Word) :
    wordOfBytes (w.extractLsb' 8 8) (w.extractLsb' 0 8) = w := by
  apply BitVec.eq_of_getLsbD_eq
  intro i hi
  simp only [wordOfBytes, BitVec.getLsbD_extractLsb', BitVec.getLsbD_append]
  interval_cases i <;> simp

end Sys2Proof
end

