-- ==== Sys2Proof/Laws/Display.lean ====
section
/-! SUPPORT. The display and the sprite compositor: what a draw does, said once (44_display.md rule R163). A draw
flips exactly the cells it targets, each once, and hits exactly when one of them was on. -/

namespace Sys2Proof.Machine

/-! ### Cells -/

theorem cell_setCell (d : Display) (r r' : Fin 32) (c c' : Fin 64) (on : Bool) :
    (d.setCell r c on).cell r' c' = if r' = r ∧ c' = c then on else d.cell r' c' := by
  simp only [Display.setCell, Display.cell, Vector.getElem_set, Fin.ext_iff]
  by_cases hr : r.val = r'.val
  · by_cases hc : c.val = c'.val
    · simp [hr, hc]
    · simp [hr, hc, Ne.symm hc]
  · simp [hr, Ne.symm hr]

/-- Two displays with the same cells are the same data. -/
theorem Display.ext_cell {d d' : Display} (h : ∀ r c, d.cell r c = d'.cell r c) : d = d' := by
  apply Vector.ext
  intro r hr
  apply Vector.ext
  intro c hc
  exact h ⟨r, hr⟩ ⟨c, hc⟩

@[simp] theorem blank_cell (r : Fin 32) (c : Fin 64) : Display.blank.cell r c = false := by
  simp [Display.blank, Display.cell]

/-! ### Flipping a set of cells -/

/-- `k'` is `k` with exactly the cells of `S` flipped, and hits where one of them was on. -/
structure Flipped (k k' : Canvas) (S : Fin 32 → Fin 64 → Prop) : Prop where
  /-- A cell of the set is flipped. -/
  inside : ∀ r c, S r c → k'.disp.cell r c = !k.disp.cell r c
  /-- Any other cell is as before. -/
  outside : ∀ r c, ¬ S r c → k'.disp.cell r c = k.disp.cell r c
  /-- There is a hit if there was one, or if a cell of the set was on. -/
  hit : k'.hit = true ↔ k.hit = true ∨ ∃ r c, S r c ∧ k.disp.cell r c = true

theorem Flipped.none (k : Canvas) : Flipped k k fun _ _ => False :=
  ⟨fun _ _ h => h.elim, fun _ _ _ => rfl, by simp⟩

theorem flip_flipped (k : Canvas) (r : Fin 32) (c : Fin 64) :
    Flipped k (k.flip r c) fun r' c' => r' = r ∧ c' = c := by
  unfold Canvas.flip
  cases h : k.disp.cell r c
  · refine ⟨?_, ?_, ?_⟩
    · rintro r' c' ⟨rfl, rfl⟩; simp [cell_setCell, h]
    · intro r' c' hn; simp [cell_setCell, hn]
    · simp [h]
  · refine ⟨?_, ?_, ?_⟩
    · rintro r' c' ⟨rfl, rfl⟩; simp [cell_setCell, h]
    · intro r' c' hn; simp [cell_setCell, hn]
    · simp [h]

/-- Flipping one set and then another that has no cell in common with it flips both. -/
theorem Flipped.trans {k k' k'' : Canvas} {S T : Fin 32 → Fin 64 → Prop} (hS : Flipped k k' S)
    (hT : Flipped k' k'' T) (hd : ∀ r c, S r c → ¬ T r c) :
    Flipped k k'' fun r c => S r c ∨ T r c := by
  refine ⟨?_, ?_, ?_⟩
  · rintro r c (h | h)
    · rw [hT.outside r c (hd r c h), hS.inside r c h]
    · rw [hT.inside r c h, hS.outside r c fun hs => hd r c hs h]
  · intro r c hn
    rw [hT.outside r c fun h => hn (.inr h), hS.outside r c fun h => hn (.inl h)]
  · rw [hT.hit, hS.hit, or_assoc]
    refine or_congr_right ?_
    constructor
    · rintro (⟨r, c, h, ho⟩ | ⟨r, c, h, ho⟩)
      · exact ⟨r, c, .inl h, ho⟩
      · exact ⟨r, c, .inr h, by rwa [hS.outside r c fun hs => hd r c hs h] at ho⟩
    · rintro ⟨r, c, h | h, ho⟩
      · exact .inl ⟨r, c, h, ho⟩
      · exact .inr ⟨r, c, h, by rwa [hS.outside r c fun hs => hd r c hs h]⟩

theorem Flipped.congr {k k' : Canvas} {S T : Fin 32 → Fin 64 → Prop} (h : Flipped k k' S)
    (he : ∀ r c, S r c ↔ T r c) : Flipped k k' T := by
  have : S = T := by funext r c; exact propext (he r c)
  exact this ▸ h

/-! ### A row, and a sprite -/

theorem targetCol_injOn {px a b : Nat} (h : targetCol px a = targetCol px b) (ha : a < 8) (hb : b < 8) :
    a = b := by
  simp only [targetCol, Fin.mk.injEq] at h; omega

theorem targetRow_succ (py row : Nat) : targetRow (py + 1) row = targetRow py (row + 1) := by
  simp only [targetRow, Fin.mk.injEq]; omega

theorem targetRow_zero_ne {py row : Nat} (h : row + 1 < 32) : targetRow py 0 ≠ targetRow py (row + 1) := by
  simp only [targetRow, Ne, Fin.mk.injEq]; omega

/-- The first `n` columns of a row byte flip the target cells of its set bits. -/
theorem drawColumns_flipped (px : Nat) (r : Fin 32) (b : Byte) (n : Nat) (hn : n ≤ 8) (k : Canvas) :
    Flipped k (k.drawColumns px r b n) fun r' c' =>
      r' = r ∧ ∃ col, col < n ∧ spriteBit b col = true ∧ c' = targetCol px col := by
  induction n with
  | zero => exact (Flipped.none k).congr (by simp)
  | succ n ih =>
    have ih := ih (by omega)
    simp only [Canvas.drawColumns]
    by_cases hb : spriteBit b n = true
    · rw [if_pos hb]
      refine (ih.trans (flip_flipped _ _ _) ?_).congr ?_
      · rintro r' c' ⟨rfl, col, hc, -, rfl⟩ ⟨-, he⟩
        exact absurd (targetCol_injOn he (by omega) (by omega)) (by omega)
      · intro r' c'
        constructor
        · rintro (⟨rfl, col, hc, hs, rfl⟩ | ⟨rfl, rfl⟩)
          · exact ⟨rfl, col, by omega, hs, rfl⟩
          · exact ⟨rfl, n, by omega, hb, rfl⟩
        · rintro ⟨rfl, col, hc, hs, rfl⟩
          rcases Nat.lt_succ_iff_lt_or_eq.1 hc with hc | rfl
          · exact .inl ⟨rfl, col, hc, hs, rfl⟩
          · exact .inr ⟨rfl, rfl⟩
    · rw [if_neg hb]
      refine ih.congr fun r' c' => ?_
      constructor
      · rintro ⟨rfl, col, hc, hs, rfl⟩; exact ⟨rfl, col, by omega, hs, rfl⟩
      · rintro ⟨rfl, col, hc, hs, rfl⟩
        rcases Nat.lt_succ_iff_lt_or_eq.1 hc with hc | rfl
        · exact ⟨rfl, col, hc, hs, rfl⟩
        · exact absurd hs hb

/-- A sprite of at most 32 rows flips the target cells of its set bits (R163). -/
theorem drawRows_flipped (px : Nat) (bytes : List Byte) (py : Nat) (hn : bytes.length ≤ 32) (k : Canvas) :
    Flipped k (k.drawRows px py bytes) fun r' c' =>
      ∃ row col, ∃ h : row < bytes.length, col < 8 ∧ spriteBit bytes[row] col = true ∧
        r' = targetRow py row ∧ c' = targetCol px col := by
  induction bytes generalizing py k with
  | nil => exact (Flipped.none k).congr (by simp)
  | cons b bytes ih =>
    simp only [List.length_cons] at hn
    have ih := ih (py + 1) (by omega) (k.drawColumns px (targetRow py 0) b 8)
    refine ((drawColumns_flipped px (targetRow py 0) b 8 le_rfl k).trans ih ?_).congr ?_
    · rintro r' c' ⟨rfl, -⟩ ⟨row, col, hr, -, -, he, -⟩
      rw [targetRow_succ] at he
      exact targetRow_zero_ne (by omega) he
    · intro r' c'
      constructor
      · rintro (⟨rfl, col, hc, hs, rfl⟩ | ⟨row, col, hr, hc, hs, rfl, rfl⟩)
        · exact ⟨0, col, by simp, hc, by simpa using hs, rfl, rfl⟩
        · exact ⟨row + 1, col, by simpa using hr, hc, by simpa using hs, targetRow_succ _ _, rfl⟩
      · rintro ⟨row, col, hr, hc, hs, rfl, rfl⟩
        cases row with
        | zero => exact .inl ⟨rfl, col, hc, by simpa using hs, rfl⟩
        | succ row =>
          exact .inr ⟨row, col, by simpa using hr, hc, by simpa using hs, (targetRow_succ _ _).symm, rfl⟩

end Sys2Proof.Machine
end

