-- ==== Sys2Proof/Laws/Memory.lean ====
section
/-! SUPPORT. Main memory: a read after a write, the canonical form and its uniqueness, and runs of
consecutive reads and writes (20_memory.md, log 14). -/

namespace Sys2Proof.Machine

/-! ### Cells -/

theorem cellAt_dropCell (cells : List Host.Cell) (a k : Nat) :
    cellAt (dropCell a cells) k = if k = a then none else cellAt cells k := by
  induction cells with
  | nil => simp [dropCell, cellAt]
  | cons c cells ih =>
    obtain ⟨j, b⟩ := c
    by_cases hj : j = a
    · subst hj
      have : dropCell j ((j, b) :: cells) = dropCell j cells := by simp [dropCell]
      rw [this, ih]
      by_cases hk : k = j
      · simp [hk]
      · simp [hk, cellAt, Ne.symm hk]
    · have : dropCell a ((j, b) :: cells) = (j, b) :: dropCell a cells := by simp [dropCell, hj]
      rw [this]
      by_cases hk : j = k
      · subst hk; simp [cellAt, hj]
      · simp [cellAt, hk, ih]

theorem cellAt_insertCell (cells : List Host.Cell) (a k : Nat) (b : Byte)
    (h : cellAt cells a = none) :
    cellAt (insertCell a b cells) k = if k = a then some b else cellAt cells k := by
  induction cells with
  | nil => by_cases hk : a = k <;> simp [insertCell, cellAt, hk, eq_comm (a := k)]
  | cons c cells ih =>
    obtain ⟨j, d⟩ := c
    have hj : j ≠ a := by rintro rfl; simp [cellAt] at h
    have ht : cellAt cells a = none := by simpa [cellAt, hj] using h
    by_cases hlt : a < j
    · simp [insertCell, hlt, cellAt, eq_comm (a := k)]
    · by_cases hk : j = k
      · subst hk; simp [insertCell, hlt, cellAt, hj]
      · simp [insertCell, hlt, cellAt, hk, ih ht]

/-! ### Reads and writes -/

@[simp] theorem write_font (m : Memory) (a : Nat) (b : Byte) : (m.write a b).font = m.font := rfl

@[simp] theorem write_unlisted (m : Memory) (a k : Nat) (b : Byte) :
    (m.write a b).unlisted k = m.unlisted k := rfl

/-- A read after a write: the byte written, or what was there. -/
theorem read_write (m : Memory) (a k : Nat) (b : Byte) :
    (m.write a b).read k = if k = a then b else m.read k := by
  unfold Memory.read
  rw [write_unlisted]
  by_cases hb : b = m.unlisted a
  · have : (m.write a b).cells = dropCell a m.cells := by simp [Memory.write, hb]
    rw [this, cellAt_dropCell]
    by_cases hk : k = a <;> simp [hk, hb]
  · have : (m.write a b).cells = insertCell a b (dropCell a m.cells) := by simp [Memory.write, hb]
    rw [this, cellAt_insertCell _ _ _ _ (by simp [cellAt_dropCell]), cellAt_dropCell]
    by_cases hk : k = a <;> simp [hk]

@[simp] theorem read_write_same (m : Memory) (a : Nat) (b : Byte) : (m.write a b).read a = b := by
  simp [read_write]

theorem read_write_other (m : Memory) {a k : Nat} (b : Byte) (h : k ≠ a) :
    (m.write a b).read k = m.read k := by simp [read_write, h]

@[simp] theorem writeBytes_font (bytes : List Byte) (m : Memory) (a : Nat) :
    (m.writeBytes a bytes).font = m.font := by
  induction bytes generalizing m a with
  | nil => rfl
  | cons b bytes ih => simp [Memory.writeBytes, ih]

/-- A byte outside the run of a consecutive write is as before. -/
theorem read_writeBytes_outside (bytes : List Byte) (m : Memory) (a k : Nat)
    (h : k < a ∨ a + bytes.length ≤ k) : (m.writeBytes a bytes).read k = m.read k := by
  induction bytes generalizing m a with
  | nil => rfl
  | cons b bytes ih =>
    simp only [List.length_cons] at h
    rw [Memory.writeBytes, ih _ _ (by omega), read_write_other _ _ (by omega)]

/-- Byte `j` of a consecutive write is what its address then reads. -/
theorem read_writeBytes_inside (bytes : List Byte) (m : Memory) (a j : Nat) (h : j < bytes.length) :
    (m.writeBytes a bytes).read (a + j) = bytes[j] := by
  induction bytes generalizing m a j with
  | nil => simp at h
  | cons b bytes ih =>
    cases j with
    | zero =>
      rw [Memory.writeBytes, read_writeBytes_outside _ _ _ _ (by omega)]
      simp
    | succ j =>
      have := ih (m.write a b) (a + 1) j (by simpa using h)
      rw [Memory.writeBytes, show a + (j + 1) = a + 1 + j by omega, this]
      simp

@[simp] theorem readBytes_length (n : Nat) (m : Memory) (a : Nat) :
    (m.readBytes a n).length = n := by
  induction n generalizing a with
  | zero => rfl
  | succ n ih => simp [Memory.readBytes, ih]

theorem readBytes_get (n : Nat) (m : Memory) (a j : Nat) (h : j < n) :
    (m.readBytes a n)[j]'(by simpa using h) = m.read (a + j) := by
  induction n generalizing a j with
  | zero => omega
  | succ n ih =>
    cases j with
    | zero => simp [Memory.readBytes]
    | succ j =>
      simp only [Memory.readBytes, List.getElem_cons_succ]
      rw [ih (a + 1) j (by omega)]
      congr 1; omega

/-! ### The canonical form -/

theorem insertCell_mem {cells : List Host.Cell} {a : Nat} {b : Byte} {c : Host.Cell} :
    c ∈ insertCell a b cells ↔ c = (a, b) ∨ c ∈ cells := by
  induction cells with
  | nil => simp [insertCell]
  | cons d cells ih =>
    obtain ⟨k, e⟩ := d
    by_cases h : a < k
    · simp [insertCell, h]
    · simp only [insertCell, h, if_false, List.mem_cons, ih]; tauto

theorem insertCell_sorted {cells : List Host.Cell} {a : Nat} {b : Byte}
    (h : cells.Pairwise (fun c d => c.1 < d.1)) (ha : ∀ c ∈ cells, c.1 ≠ a) :
    (insertCell a b cells).Pairwise (fun c d => c.1 < d.1) := by
  induction cells with
  | nil => simp [insertCell]
  | cons d cells ih =>
    obtain ⟨k, e⟩ := d
    rw [List.pairwise_cons] at h
    have hk : k ≠ a := ha (k, e) (by simp)
    by_cases hlt : a < k
    · simp only [insertCell, hlt, if_true, List.pairwise_cons]
      refine ⟨?_, h.1, h.2⟩
      intro c hc
      rcases List.mem_cons.1 hc with rfl | hc
      · exact hlt
      · exact hlt.trans (h.1 c hc)
    · simp only [insertCell, hlt, if_false, List.pairwise_cons]
      refine ⟨?_, ih h.2 fun c hc => ha c (List.mem_cons_of_mem _ hc)⟩
      intro c hc
      rcases insertCell_mem.1 hc with rfl | hc
      · show k < a; omega
      · exact h.1 c hc

/-- A write inside the address space keeps the canonical form. -/
theorem write_wf {m : Memory} {a : Nat} {b : Byte} (h : m.wf) (ha : a < 4096) : (m.write a b).wf := by
  have hs : (dropCell a m.cells).Pairwise (fun c d => c.1 < d.1) := h.1.filter _
  have hd : ∀ c ∈ dropCell a m.cells, c ∈ m.cells ∧ c.1 ≠ a := by
    intro c hc; simpa [dropCell] using hc
  by_cases hb : b = m.unlisted a
  · have hc : (m.write a b).cells = dropCell a m.cells := by simp [Memory.write, hb]
    refine ⟨by rw [hc]; exact hs, ?_⟩
    rw [hc]
    exact fun c hc => h.2 c (hd c hc).1
  · have hc : (m.write a b).cells = insertCell a b (dropCell a m.cells) := by simp [Memory.write, hb]
    refine ⟨by rw [hc]; exact insertCell_sorted hs fun c hc => (hd c hc).2, ?_⟩
    rw [hc]
    intro c hc
    rcases insertCell_mem.1 hc with rfl | hc
    · exact ⟨ha, hb⟩
    · exact h.2 c (hd c hc).1

/-- A consecutive write inside the address space keeps the canonical form. -/
theorem writeBytes_wf {bytes : List Byte} {m : Memory} {a : Nat} (h : m.wf)
    (ha : a + bytes.length ≤ 4096) : (m.writeBytes a bytes).wf := by
  induction bytes generalizing m a with
  | nil => exact h
  | cons b bytes ih =>
    simp only [List.length_cons] at ha
    exact ih (write_wf h (by omega)) (by omega)

/-- Memory right after Reset is in its canonical form. -/
theorem reset_mem_wf (font : Vector Byte 80) : (State.resetWith font).mem.wf :=
  ⟨List.Pairwise.nil, fun c hc => absurd hc (by simp [State.resetWith])⟩

theorem cellAt_eq_some {cells : List Host.Cell} (h : cells.Pairwise (fun c d => c.1 < d.1))
    {k : Nat} {b : Byte} : cellAt cells k = some b ↔ (k, b) ∈ cells := by
  induction cells with
  | nil => simp [cellAt]
  | cons d cells ih =>
    obtain ⟨j, e⟩ := d
    rw [List.pairwise_cons] at h
    by_cases hj : j = k
    · subst hj
      have : (j, b) ∉ cells := fun hc => absurd (h.1 _ hc) (by simp)
      simp [cellAt, this, eq_comm]
    · simp [cellAt, hj, ih h.2, Ne.symm hj]

/-- What a canonical memory lists is exactly where it differs from its unlisted contents. -/
theorem mem_cells_iff {m : Memory} (h : m.wf) {k : Nat} {b : Byte} :
    (k, b) ∈ m.cells ↔ m.read k = b ∧ b ≠ m.unlisted k := by
  rw [← cellAt_eq_some h.1]
  unfold Memory.read
  cases hc : cellAt m.cells k with
  | none =>
    simp only [reduceCtorEq, false_iff, not_and, not_not]
    exact fun hb => hb.symm
  | some d =>
    have := h.2 _ ((cellAt_eq_some h.1).1 hc)
    constructor
    · rintro ⟨⟩; exact ⟨rfl, this.2⟩
    · rintro ⟨rfl, -⟩; rfl

end Sys2Proof.Machine
end

