-- ==== Sys2Proof/Laws/State.lean ====
section
/-! SUPPORT. One lemma for each field of State under each update the machine uses, true by rfl, so that no
proof unfolds a record update; and the fields of the ports when a tick opens. -/

namespace Sys2Proof.Machine

variable (s : State)

/-! ### setReg -/

@[simp] theorem setReg_v (x : Reg) (b : Byte) : (s.setReg x b).v = s.v.set x.val b := rfl
@[simp] theorem setReg_i (x : Reg) (b : Byte) : (s.setReg x b).i = s.i := rfl
@[simp] theorem setReg_pc (x : Reg) (b : Byte) : (s.setReg x b).pc = s.pc := rfl
@[simp] theorem setReg_stack (x : Reg) (b : Byte) : (s.setReg x b).stack = s.stack := rfl
@[simp] theorem setReg_sp (x : Reg) (b : Byte) : (s.setReg x b).sp = s.sp := rfl
@[simp] theorem setReg_dt (x : Reg) (b : Byte) : (s.setReg x b).dt = s.dt := rfl
@[simp] theorem setReg_st (x : Reg) (b : Byte) : (s.setReg x b).st = s.st := rfl
@[simp] theorem setReg_mem (x : Reg) (b : Byte) : (s.setReg x b).mem = s.mem := rfl
@[simp] theorem setReg_disp (x : Reg) (b : Byte) : (s.setReg x b).disp = s.disp := rfl
@[simp] theorem setReg_keys (x : Reg) (b : Byte) : (s.setReg x b).keys = s.keys := rfl
@[simp] theorem setReg_waiting (x : Reg) (b : Byte) : (s.setReg x b).waiting = s.waiting := rfl
@[simp] theorem setReg_keyreg (x : Reg) (b : Byte) : (s.setReg x b).keyreg = s.keyreg := rfl
@[simp] theorem setReg_fault (x : Reg) (b : Byte) : (s.setReg x b).fault = s.fault := rfl
@[simp] theorem setReg_port (x : Reg) (b : Byte) : (s.setReg x b).port = s.port := rfl

/-! ### takeFault -/

@[simp] theorem takeFault_v (a : Word) (f : Fault) : (takeFault a f s).v = s.v := rfl
@[simp] theorem takeFault_i (a : Word) (f : Fault) : (takeFault a f s).i = s.i := rfl
@[simp] theorem takeFault_pc (a : Word) (f : Fault) : (takeFault a f s).pc = a := rfl
@[simp] theorem takeFault_stack (a : Word) (f : Fault) : (takeFault a f s).stack = s.stack := rfl
@[simp] theorem takeFault_sp (a : Word) (f : Fault) : (takeFault a f s).sp = s.sp := rfl
@[simp] theorem takeFault_dt (a : Word) (f : Fault) : (takeFault a f s).dt = s.dt := rfl
@[simp] theorem takeFault_st (a : Word) (f : Fault) : (takeFault a f s).st = s.st := rfl
@[simp] theorem takeFault_mem (a : Word) (f : Fault) : (takeFault a f s).mem = s.mem := rfl
@[simp] theorem takeFault_disp (a : Word) (f : Fault) : (takeFault a f s).disp = s.disp := rfl
@[simp] theorem takeFault_keys (a : Word) (f : Fault) : (takeFault a f s).keys = s.keys := rfl
@[simp] theorem takeFault_waiting (a : Word) (f : Fault) : (takeFault a f s).waiting = s.waiting := rfl
@[simp] theorem takeFault_keyreg (a : Word) (f : Fault) : (takeFault a f s).keyreg = s.keyreg := rfl
@[simp] theorem takeFault_fault (a : Word) (f : Fault) : (takeFault a f s).fault = some f := rfl
@[simp] theorem takeFault_port (a : Word) (f : Fault) : (takeFault a f s).port = s.port := rfl

/-! ### raise -/

@[simp] theorem raise_v (f : Fault) : (raise f s).v = s.v := rfl
@[simp] theorem raise_i (f : Fault) : (raise f s).i = s.i := rfl
@[simp] theorem raise_pc (f : Fault) : (raise f s).pc = s.pc - 2 := rfl
@[simp] theorem raise_stack (f : Fault) : (raise f s).stack = s.stack := rfl
@[simp] theorem raise_sp (f : Fault) : (raise f s).sp = s.sp := rfl
@[simp] theorem raise_dt (f : Fault) : (raise f s).dt = s.dt := rfl
@[simp] theorem raise_st (f : Fault) : (raise f s).st = s.st := rfl
@[simp] theorem raise_mem (f : Fault) : (raise f s).mem = s.mem := rfl
@[simp] theorem raise_disp (f : Fault) : (raise f s).disp = s.disp := rfl
@[simp] theorem raise_keys (f : Fault) : (raise f s).keys = s.keys := rfl
@[simp] theorem raise_waiting (f : Fault) : (raise f s).waiting = s.waiting := rfl
@[simp] theorem raise_keyreg (f : Fault) : (raise f s).keyreg = s.keyreg := rfl
@[simp] theorem raise_fault (f : Fault) : (raise f s).fault = some f := rfl
@[simp] theorem raise_port (f : Fault) : (raise f s).port = s.port := rfl

/-! ### advance -/

@[simp] theorem advance_v : (advance s).v = s.v := rfl
@[simp] theorem advance_i : (advance s).i = s.i := rfl
@[simp] theorem advance_pc : (advance s).pc = s.pc + 2 := rfl
@[simp] theorem advance_stack : (advance s).stack = s.stack := rfl
@[simp] theorem advance_sp : (advance s).sp = s.sp := rfl
@[simp] theorem advance_dt : (advance s).dt = s.dt := rfl
@[simp] theorem advance_st : (advance s).st = s.st := rfl
@[simp] theorem advance_mem : (advance s).mem = s.mem := rfl
@[simp] theorem advance_disp : (advance s).disp = s.disp := rfl
@[simp] theorem advance_keys : (advance s).keys = s.keys := rfl
@[simp] theorem advance_waiting : (advance s).waiting = s.waiting := rfl
@[simp] theorem advance_keyreg : (advance s).keyreg = s.keyreg := rfl
@[simp] theorem advance_fault : (advance s).fault = s.fault := rfl
@[simp] theorem advance_port : (advance s).port = s.port := rfl

/-! ### skipIf -/

@[simp] theorem skipIf_v (c : Bool) : (skipIf c s).v = s.v := rfl
@[simp] theorem skipIf_i (c : Bool) : (skipIf c s).i = s.i := rfl
@[simp] theorem skipIf_pc (c : Bool) : (skipIf c s).pc = if c then s.pc + 2 else s.pc := rfl
@[simp] theorem skipIf_stack (c : Bool) : (skipIf c s).stack = s.stack := rfl
@[simp] theorem skipIf_sp (c : Bool) : (skipIf c s).sp = s.sp := rfl
@[simp] theorem skipIf_dt (c : Bool) : (skipIf c s).dt = s.dt := rfl
@[simp] theorem skipIf_st (c : Bool) : (skipIf c s).st = s.st := rfl
@[simp] theorem skipIf_mem (c : Bool) : (skipIf c s).mem = s.mem := rfl
@[simp] theorem skipIf_disp (c : Bool) : (skipIf c s).disp = s.disp := rfl
@[simp] theorem skipIf_keys (c : Bool) : (skipIf c s).keys = s.keys := rfl
@[simp] theorem skipIf_waiting (c : Bool) : (skipIf c s).waiting = s.waiting := rfl
@[simp] theorem skipIf_keyreg (c : Bool) : (skipIf c s).keyreg = s.keyreg := rfl
@[simp] theorem skipIf_fault (c : Bool) : (skipIf c s).fault = s.fault := rfl
@[simp] theorem skipIf_port (c : Bool) : (skipIf c s).port = s.port := rfl

/-! ### jumpTo -/

@[simp] theorem jumpTo_v (w : Word) : (jumpTo w s).v = s.v := rfl
@[simp] theorem jumpTo_i (w : Word) : (jumpTo w s).i = s.i := rfl
@[simp] theorem jumpTo_pc (w : Word) : (jumpTo w s).pc = w := rfl
@[simp] theorem jumpTo_stack (w : Word) : (jumpTo w s).stack = s.stack := rfl
@[simp] theorem jumpTo_sp (w : Word) : (jumpTo w s).sp = s.sp := rfl
@[simp] theorem jumpTo_dt (w : Word) : (jumpTo w s).dt = s.dt := rfl
@[simp] theorem jumpTo_st (w : Word) : (jumpTo w s).st = s.st := rfl
@[simp] theorem jumpTo_mem (w : Word) : (jumpTo w s).mem = s.mem := rfl
@[simp] theorem jumpTo_disp (w : Word) : (jumpTo w s).disp = s.disp := rfl
@[simp] theorem jumpTo_keys (w : Word) : (jumpTo w s).keys = s.keys := rfl
@[simp] theorem jumpTo_waiting (w : Word) : (jumpTo w s).waiting = s.waiting := rfl
@[simp] theorem jumpTo_keyreg (w : Word) : (jumpTo w s).keyreg = s.keyreg := rfl
@[simp] theorem jumpTo_fault (w : Word) : (jumpTo w s).fault = s.fault := rfl
@[simp] theorem jumpTo_port (w : Word) : (jumpTo w s).port = s.port := rfl

/-! ### pushPc -/

@[simp] theorem pushPc_v (h : s.sp.val < 16) : (pushPc s h).v = s.v := rfl
@[simp] theorem pushPc_i (h : s.sp.val < 16) : (pushPc s h).i = s.i := rfl
@[simp] theorem pushPc_pc (h : s.sp.val < 16) : (pushPc s h).pc = s.pc := rfl
@[simp] theorem pushPc_stack (h : s.sp.val < 16) : (pushPc s h).stack = s.stack.set s.sp.val s.pc := rfl
@[simp] theorem pushPc_sp (h : s.sp.val < 16) : (pushPc s h).sp = ⟨s.sp.val + 1, by omega⟩ := rfl
@[simp] theorem pushPc_dt (h : s.sp.val < 16) : (pushPc s h).dt = s.dt := rfl
@[simp] theorem pushPc_st (h : s.sp.val < 16) : (pushPc s h).st = s.st := rfl
@[simp] theorem pushPc_mem (h : s.sp.val < 16) : (pushPc s h).mem = s.mem := rfl
@[simp] theorem pushPc_disp (h : s.sp.val < 16) : (pushPc s h).disp = s.disp := rfl
@[simp] theorem pushPc_keys (h : s.sp.val < 16) : (pushPc s h).keys = s.keys := rfl
@[simp] theorem pushPc_waiting (h : s.sp.val < 16) : (pushPc s h).waiting = s.waiting := rfl
@[simp] theorem pushPc_keyreg (h : s.sp.val < 16) : (pushPc s h).keyreg = s.keyreg := rfl
@[simp] theorem pushPc_fault (h : s.sp.val < 16) : (pushPc s h).fault = s.fault := rfl
@[simp] theorem pushPc_port (h : s.sp.val < 16) : (pushPc s h).port = s.port := rfl

/-! ### popPc -/

@[simp] theorem popPc_v (h : 0 < s.sp.val) : (popPc s h).v = s.v := rfl
@[simp] theorem popPc_i (h : 0 < s.sp.val) : (popPc s h).i = s.i := rfl
@[simp] theorem popPc_pc (h : 0 < s.sp.val) : (popPc s h).pc = s.stack[s.sp.val - 1] := rfl
@[simp] theorem popPc_stack (h : 0 < s.sp.val) : (popPc s h).stack = s.stack := rfl
@[simp] theorem popPc_sp (h : 0 < s.sp.val) : (popPc s h).sp = ⟨s.sp.val - 1, by omega⟩ := rfl
@[simp] theorem popPc_dt (h : 0 < s.sp.val) : (popPc s h).dt = s.dt := rfl
@[simp] theorem popPc_st (h : 0 < s.sp.val) : (popPc s h).st = s.st := rfl
@[simp] theorem popPc_mem (h : 0 < s.sp.val) : (popPc s h).mem = s.mem := rfl
@[simp] theorem popPc_disp (h : 0 < s.sp.val) : (popPc s h).disp = s.disp := rfl
@[simp] theorem popPc_keys (h : 0 < s.sp.val) : (popPc s h).keys = s.keys := rfl
@[simp] theorem popPc_waiting (h : 0 < s.sp.val) : (popPc s h).waiting = s.waiting := rfl
@[simp] theorem popPc_keyreg (h : 0 < s.sp.val) : (popPc s h).keyreg = s.keyreg := rfl
@[simp] theorem popPc_fault (h : 0 < s.sp.val) : (popPc s h).fault = s.fault := rfl
@[simp] theorem popPc_port (h : 0 < s.sp.val) : (popPc s h).port = s.port := rfl

/-! ### timerStep -/

@[simp] theorem timerStep_v : (timerStep s).v = s.v := rfl
@[simp] theorem timerStep_i : (timerStep s).i = s.i := rfl
@[simp] theorem timerStep_pc : (timerStep s).pc = s.pc := rfl
@[simp] theorem timerStep_stack : (timerStep s).stack = s.stack := rfl
@[simp] theorem timerStep_sp : (timerStep s).sp = s.sp := rfl
@[simp] theorem timerStep_dt : (timerStep s).dt = countDown s.dt := rfl
@[simp] theorem timerStep_st : (timerStep s).st = countDown s.st := rfl
@[simp] theorem timerStep_mem : (timerStep s).mem = s.mem := rfl
@[simp] theorem timerStep_disp : (timerStep s).disp = s.disp := rfl
@[simp] theorem timerStep_keys : (timerStep s).keys = s.keys := rfl
@[simp] theorem timerStep_waiting : (timerStep s).waiting = s.waiting := rfl
@[simp] theorem timerStep_keyreg : (timerStep s).keyreg = s.keyreg := rfl
@[simp] theorem timerStep_fault : (timerStep s).fault = s.fault := rfl
@[simp] theorem timerStep_port : (timerStep s).port = { s.port with tone := decide (s.st ≠ 0) } := rfl

/-! ### openTick -/

@[simp] theorem openTick_v : (openTick s).v = s.v := rfl
@[simp] theorem openTick_i : (openTick s).i = s.i := rfl
@[simp] theorem openTick_pc : (openTick s).pc = s.pc := rfl
@[simp] theorem openTick_stack : (openTick s).stack = s.stack := rfl
@[simp] theorem openTick_sp : (openTick s).sp = s.sp := rfl
@[simp] theorem openTick_dt : (openTick s).dt = s.dt := rfl
@[simp] theorem openTick_st : (openTick s).st = s.st := rfl
@[simp] theorem openTick_mem : (openTick s).mem = s.mem := rfl
@[simp] theorem openTick_disp : (openTick s).disp = s.disp := rfl
@[simp] theorem openTick_keys : (openTick s).keys = s.keys := rfl
@[simp] theorem openTick_waiting : (openTick s).waiting = s.waiting := rfl
@[simp] theorem openTick_keyreg : (openTick s).keyreg = s.keyreg := rfl
@[simp] theorem openTick_fault : (openTick s).fault = s.fault := rfl
@[simp] theorem openTick_port : (openTick s).port = s.port.opened := rfl

/-! ### latch -/

@[simp] theorem latch_v (inp : TickInput) : (latch inp s).v = s.v := rfl
@[simp] theorem latch_i (inp : TickInput) : (latch inp s).i = s.i := rfl
@[simp] theorem latch_pc (inp : TickInput) : (latch inp s).pc = s.pc := rfl
@[simp] theorem latch_stack (inp : TickInput) : (latch inp s).stack = s.stack := rfl
@[simp] theorem latch_sp (inp : TickInput) : (latch inp s).sp = s.sp := rfl
@[simp] theorem latch_dt (inp : TickInput) : (latch inp s).dt = s.dt := rfl
@[simp] theorem latch_st (inp : TickInput) : (latch inp s).st = s.st := rfl
@[simp] theorem latch_mem (inp : TickInput) : (latch inp s).mem = s.mem := rfl
@[simp] theorem latch_disp (inp : TickInput) : (latch inp s).disp = s.disp := rfl
@[simp] theorem latch_keys (inp : TickInput) : (latch inp s).keys = inp.keys := rfl
@[simp] theorem latch_waiting (inp : TickInput) : (latch inp s).waiting = s.waiting := rfl
@[simp] theorem latch_keyreg (inp : TickInput) : (latch inp s).keyreg = s.keyreg := rfl
@[simp] theorem latch_fault (inp : TickInput) : (latch inp s).fault = s.fault := rfl
@[simp] theorem latch_port (inp : TickInput) : (latch inp s).port = { s.port with rnd := inp.rnd } := rfl

/-! ### resumeTick -/

@[simp] theorem resumeTick_v (k : Reg) :
    (resumeTick k s).v = s.v.set s.keyreg.val (BitVec.ofNat 8 k.val) := rfl
@[simp] theorem resumeTick_i (k : Reg) : (resumeTick k s).i = s.i := rfl
@[simp] theorem resumeTick_pc (k : Reg) : (resumeTick k s).pc = s.pc := rfl
@[simp] theorem resumeTick_stack (k : Reg) : (resumeTick k s).stack = s.stack := rfl
@[simp] theorem resumeTick_sp (k : Reg) : (resumeTick k s).sp = s.sp := rfl
@[simp] theorem resumeTick_dt (k : Reg) : (resumeTick k s).dt = s.dt := rfl
@[simp] theorem resumeTick_st (k : Reg) : (resumeTick k s).st = s.st := rfl
@[simp] theorem resumeTick_mem (k : Reg) : (resumeTick k s).mem = s.mem := rfl
@[simp] theorem resumeTick_disp (k : Reg) : (resumeTick k s).disp = s.disp := rfl
@[simp] theorem resumeTick_keys (k : Reg) : (resumeTick k s).keys = s.keys := rfl
@[simp] theorem resumeTick_waiting (k : Reg) : (resumeTick k s).waiting = false := rfl
@[simp] theorem resumeTick_keyreg (k : Reg) : (resumeTick k s).keyreg = s.keyreg := rfl
@[simp] theorem resumeTick_fault (k : Reg) : (resumeTick k s).fault = s.fault := rfl
@[simp] theorem resumeTick_port (k : Reg) : (resumeTick k s).port = s.port := rfl

/-! ### unmatchedNoOp -/

@[simp] theorem unmatchedNoOp_v (a w : Word) : (unmatchedNoOp a w s).v = s.v := rfl
@[simp] theorem unmatchedNoOp_i (a w : Word) : (unmatchedNoOp a w s).i = s.i := rfl
@[simp] theorem unmatchedNoOp_pc (a w : Word) : (unmatchedNoOp a w s).pc = s.pc := rfl
@[simp] theorem unmatchedNoOp_stack (a w : Word) : (unmatchedNoOp a w s).stack = s.stack := rfl
@[simp] theorem unmatchedNoOp_sp (a w : Word) : (unmatchedNoOp a w s).sp = s.sp := rfl
@[simp] theorem unmatchedNoOp_dt (a w : Word) : (unmatchedNoOp a w s).dt = s.dt := rfl
@[simp] theorem unmatchedNoOp_st (a w : Word) : (unmatchedNoOp a w s).st = s.st := rfl
@[simp] theorem unmatchedNoOp_mem (a w : Word) : (unmatchedNoOp a w s).mem = s.mem := rfl
@[simp] theorem unmatchedNoOp_disp (a w : Word) : (unmatchedNoOp a w s).disp = s.disp := rfl
@[simp] theorem unmatchedNoOp_keys (a w : Word) : (unmatchedNoOp a w s).keys = s.keys := rfl
@[simp] theorem unmatchedNoOp_waiting (a w : Word) : (unmatchedNoOp a w s).waiting = s.waiting := rfl
@[simp] theorem unmatchedNoOp_keyreg (a w : Word) : (unmatchedNoOp a w s).keyreg = s.keyreg := rfl
@[simp] theorem unmatchedNoOp_fault (a w : Word) : (unmatchedNoOp a w s).fault = s.fault := rfl
@[simp] theorem unmatchedNoOp_port (a w : Word) :
    (unmatchedNoOp a w s).port = { s.port with diag := some { addr := a, word := w } } := rfl

/-! ### applyLoad -/

@[simp] theorem applyLoad_v (image : List Byte) : (applyLoad image s).v = s.v := rfl
@[simp] theorem applyLoad_i (image : List Byte) : (applyLoad image s).i = s.i := rfl
@[simp] theorem applyLoad_pc (image : List Byte) : (applyLoad image s).pc = s.pc := rfl
@[simp] theorem applyLoad_stack (image : List Byte) : (applyLoad image s).stack = s.stack := rfl
@[simp] theorem applyLoad_sp (image : List Byte) : (applyLoad image s).sp = s.sp := rfl
@[simp] theorem applyLoad_dt (image : List Byte) : (applyLoad image s).dt = s.dt := rfl
@[simp] theorem applyLoad_st (image : List Byte) : (applyLoad image s).st = s.st := rfl
@[simp] theorem applyLoad_mem (image : List Byte) :
    (applyLoad image s).mem = s.mem.writeBytes Config.progBase image := rfl
@[simp] theorem applyLoad_disp (image : List Byte) : (applyLoad image s).disp = s.disp := rfl
@[simp] theorem applyLoad_keys (image : List Byte) : (applyLoad image s).keys = s.keys := rfl
@[simp] theorem applyLoad_waiting (image : List Byte) : (applyLoad image s).waiting = s.waiting := rfl
@[simp] theorem applyLoad_keyreg (image : List Byte) : (applyLoad image s).keyreg = s.keyreg := rfl
@[simp] theorem applyLoad_fault (image : List Byte) : (applyLoad image s).fault = s.fault := rfl
@[simp] theorem applyLoad_port (image : List Byte) :
    (applyLoad image s).port = { s.port with loadOpen := false } := rfl

/-! ### offerInput -/

@[simp] theorem offerInput_v (inp : TickInput) : (offerInput inp s).v = s.v := rfl
@[simp] theorem offerInput_i (inp : TickInput) : (offerInput inp s).i = s.i := rfl
@[simp] theorem offerInput_pc (inp : TickInput) : (offerInput inp s).pc = s.pc := rfl
@[simp] theorem offerInput_stack (inp : TickInput) : (offerInput inp s).stack = s.stack := rfl
@[simp] theorem offerInput_sp (inp : TickInput) : (offerInput inp s).sp = s.sp := rfl
@[simp] theorem offerInput_dt (inp : TickInput) : (offerInput inp s).dt = s.dt := rfl
@[simp] theorem offerInput_st (inp : TickInput) : (offerInput inp s).st = s.st := rfl
@[simp] theorem offerInput_mem (inp : TickInput) : (offerInput inp s).mem = s.mem := rfl
@[simp] theorem offerInput_disp (inp : TickInput) : (offerInput inp s).disp = s.disp := rfl
@[simp] theorem offerInput_keys (inp : TickInput) : (offerInput inp s).keys = s.keys := rfl
@[simp] theorem offerInput_waiting (inp : TickInput) : (offerInput inp s).waiting = s.waiting := rfl
@[simp] theorem offerInput_keyreg (inp : TickInput) : (offerInput inp s).keyreg = s.keyreg := rfl
@[simp] theorem offerInput_fault (inp : TickInput) : (offerInput inp s).fault = s.fault := rfl
@[simp] theorem offerInput_port (inp : TickInput) :
    (offerInput inp s).port = { s.port with inputs := inp :: s.port.inputs } := rfl

/-! ### placeWord -/

@[simp] theorem placeWord_v (nbits w : Nat) : (placeWord s nbits w).v = s.v := rfl
@[simp] theorem placeWord_i (nbits w : Nat) : (placeWord s nbits w).i = s.i := rfl
@[simp] theorem placeWord_pc (nbits w : Nat) : (placeWord s nbits w).pc = fetchPlace s.pc := rfl
@[simp] theorem placeWord_stack (nbits w : Nat) : (placeWord s nbits w).stack = s.stack := rfl
@[simp] theorem placeWord_sp (nbits w : Nat) : (placeWord s nbits w).sp = s.sp := rfl
@[simp] theorem placeWord_dt (nbits w : Nat) : (placeWord s nbits w).dt = s.dt := rfl
@[simp] theorem placeWord_st (nbits w : Nat) : (placeWord s nbits w).st = s.st := rfl
@[simp] theorem placeWord_mem (nbits w : Nat) :
    (placeWord s nbits w).mem = s.mem.writeBytes (fetchPlace s.pc).toNat (bytesOfWord (tableWord nbits w)) := rfl
@[simp] theorem placeWord_disp (nbits w : Nat) : (placeWord s nbits w).disp = s.disp := rfl
@[simp] theorem placeWord_keys (nbits w : Nat) : (placeWord s nbits w).keys = s.keys := rfl
@[simp] theorem placeWord_waiting (nbits w : Nat) : (placeWord s nbits w).waiting = false := rfl
@[simp] theorem placeWord_keyreg (nbits w : Nat) : (placeWord s nbits w).keyreg = s.keyreg := rfl
@[simp] theorem placeWord_fault (nbits w : Nat) : (placeWord s nbits w).fault = none := rfl
@[simp] theorem placeWord_port (nbits w : Nat) : (placeWord s nbits w).port = s.port := rfl

/-! ### The ports when a tick opens -/

@[simp] theorem opened_inputs (p : Port) : p.opened.inputs = p.inputs.tail := rfl
@[simp] theorem opened_ticks (p : Port) : p.opened.ticks = p.ticks + 1 := rfl
@[simp] theorem opened_rnd (p : Port) : p.opened.rnd = p.rnd := rfl
@[simp] theorem opened_tone (p : Port) : p.opened.tone = false := rfl
@[simp] theorem opened_diag (p : Port) : p.opened.diag = none := rfl
@[simp] theorem opened_loadOpen (p : Port) : p.opened.loadOpen = false := rfl

end Sys2Proof.Machine
end

