-- ==== Sys2Proof/Laws/Ops.lean ====
section
/-! SUPPORT. One lemma for each shared operation over registers, bounds, operands, flags, timers and keys, which
proofs cite instead of unfolding the operation. -/

namespace Sys2Proof.Machine

/-! ### Registers -/

/-- Reading a register after a write (R10: sixteen independent registers). -/
theorem reg_setReg (s : State) (x r : Reg) (b : Byte) :
    (s.setReg x b).reg r = if r = x then b else s.reg r := by
  simp only [State.reg, setReg_v, Vector.getElem_set, Fin.ext_iff]
  by_cases h : x.val = r.val <;> simp [h, eq_comm]

@[simp] theorem reg_setReg_same (s : State) (x : Reg) (b : Byte) : (s.setReg x b).reg x = b := by
  simp [reg_setReg]

theorem reg_setReg_other (s : State) {x r : Reg} (b : Byte) (h : r ≠ x) :
    (s.setReg x b).reg r = s.reg r := by simp [reg_setReg, h]

/-- A register read depends on the register file alone. -/
theorem reg_of_v {s t : State} (h : t.v = s.v) (r : Reg) : t.reg r = s.reg r := by
  simp [State.reg, h]

/-- Register files that read alike are the same data. -/
theorem v_eq_of_reg {s t : State} (h : ∀ r, t.reg r = s.reg r) : t.v = s.v := by
  apply Vector.ext
  intro j hj
  exact h ⟨j, hj⟩

/-! ### Bounds and faults -/

theorem outOfRange_iff (base n : Nat) :
    outOfRange base n = true ↔ 1 ≤ n ∧ base + n - 1 > 0xFFF := by
  simp [outOfRange]

@[simp] theorem guarded_true (f : Fault) (s t : State) : guarded true f s t = raise f s := rfl
@[simp] theorem guarded_false (f : Fault) (s t : State) : guarded false f s t = t := rfl

/-- A fetch succeeds exactly when both its bytes lie in memory (R42). -/
theorem fetch_of_le {m : Memory} {a : Word} (h : a.toNat + 1 ≤ 0xFFF) :
    m.fetch a = some (wordOfBytes (m.read a.toNat) (m.read (a.toNat + 1))) := by
  simp [Memory.fetch, show ¬ (a.toNat + 1 > 0xFFF) by omega]

theorem fetch_of_gt {m : Memory} {a : Word} (h : a.toNat + 1 > 0xFFF) : m.fetch a = none := by
  simp [Memory.fetch, h]

/-! ### Operands -/

@[simp] theorem addressOf_toNat (nnn : BitVec 12) : (addressOf nnn).toNat = nnn.toNat := by
  have := nnn.isLt
  simp only [addressOf, BitVec.toNat_setWidth]
  omega

@[simp] theorem wordOfReg_toNat (s : State) (x : Reg) : (wordOfReg s x).toNat = (s.reg x).toNat := by
  have := (s.reg x).isLt
  simp only [wordOfReg, BitVec.toNat_setWidth]
  omega

@[simp] theorem bcdDigits_length (b : Byte) : (bcdDigits b).length = 3 := rfl

@[simp] theorem blockOfRegs_length (s : State) (x : Reg) : (blockOfRegs s x).length = x.val + 1 := by
  have := x.isLt
  simp only [blockOfRegs, blockLength, List.length_take, Vector.length_toList]
  omega

theorem blockOfRegs_get (s : State) (x : Reg) (j : Nat) (h : j < (blockOfRegs s x).length) :
    (blockOfRegs s x)[j] = s.reg ⟨j, by simp at h; omega⟩ := by
  simp [blockOfRegs, State.reg]

/-- A register after a block load: from memory up to Vx, as before above (R145). -/
theorem regsFromMemory_get (s : State) (x r : Reg) :
    (regsFromMemory s x)[r.val] = if r ≤ x then s.mem.read (s.i.toNat + r.val) else s.reg r := by
  simp only [regsFromMemory, Vector.getElem_ofFn, indexBase, Fin.le_def]

/-! ### Flags -/

theorem flagByte_toNat (b : Bool) : (flagByte b).toNat = if b = true then 1 else 0 := by
  cases b <;> rfl

theorem carryFlag_toNat (a b : Byte) :
    (carryFlag a b).toNat = if a.toNat + b.toNat > 255 then 1 else 0 := by
  simp [carryFlag, flagByte_toNat]

theorem noBorrowFlag_toNat (a b : Byte) :
    (noBorrowFlag a b).toNat = if a.toNat ≥ b.toNat then 1 else 0 := by
  simp [noBorrowFlag, flagByte_toNat]

theorem shiftedOutRight_toNat (a : Byte) : (shiftedOutRight a).toNat = a.toNat % 2 := by
  simp [shiftedOutRight, BitVec.toNat_and, Nat.and_one_is_mod]

theorem shiftedOutLeft_toNat (a : Byte) : (shiftedOutLeft a).toNat = a.toNat / 128 := by
  have := a.isLt
  have h1 : BitVec.toNat (1 : Byte) = 1 := rfl
  simp only [shiftedOutLeft, BitVec.toNat_and, BitVec.toNat_ushiftRight, Nat.shiftRight_eq_div_pow, h1,
    Nat.and_one_is_mod]
  omega

/-! ### Timers -/

/-- A timer counts down by one and stops at 0 (R87). -/
theorem countDown_toNat (b : Byte) : (countDown b).toNat = b.toNat - 1 := by
  unfold countDown
  by_cases h : b = 0
  · simp [h]
  · have : b.toNat ≠ 0 := fun h' => h (BitVec.eq_of_toNat_eq h')
    have := b.isLt
    have h1 : BitVec.toNat (1 : Byte) = 1 := rfl
    rw [if_neg h, BitVec.toNat_sub, h1]
    omega

/-! ### Keys -/

/-- A reported key is pressed (R82). -/
theorem reportedKey_pressed {keys : Vector Bool 16} {pick k : Reg} (h : reportedKey keys pick = some k) :
    keys[k.val] = true := by
  unfold reportedKey at h
  split at h
  · next hp => cases h; exact hp
  · exact List.find?_some (p := fun k : Reg => keys[k.val]) h

/-- The preferred key is reported when it is pressed (log 2). -/
theorem reportedKey_pick {keys : Vector Bool 16} {pick : Reg} (h : keys[pick.val] = true) :
    reportedKey keys pick = some pick := by simp [reportedKey, h]

/-- No key is reported exactly when none is pressed (R81, R82). -/
theorem reportedKey_none {keys : Vector Bool 16} {pick : Reg} :
    reportedKey keys pick = none ↔ ∀ k : Reg, keys[k.val] = false := by
  unfold reportedKey
  constructor
  · intro h k
    split at h
    · cases h
    · simpa using List.find?_eq_none.1 h k (List.mem_finRange k)
  · intro h
    rw [if_neg (by simp [h pick]), List.find?_eq_none]
    intro k _
    simp [h k]

end Sys2Proof.Machine
end

