-- ==== Sys2Proof/Laws/Exec.lean ====
section
/-! SUPPORT. What dispatch can do, said once: where the fault of R192 is due an instruction raises it and does
nothing else; everywhere else it answers a next state with no new fault. -/

namespace Sys2Proof.Machine

/-! ### The guarded instructions, one equation for each side of their check -/

theorem exec_ret_ok {s : State} (h : 0 < s.sp.val) : exec .ret s = .next (popPc s h) := by
  simp [exec, execRet, h]

theorem exec_ret_empty {s : State} (h : s.sp.val = 0) : exec .ret s = .next (raise .stackUnderflow s) := by
  simp [exec, execRet, h]

theorem exec_call_ok {s : State} (nnn : BitVec 12) (h : s.sp.val < 16) :
    exec (.call nnn) s = .next (jumpTo (addressOf nnn) (pushPc s h)) := by
  simp [exec, execCall, h]

theorem exec_call_full {s : State} (nnn : BitVec 12) (h : s.sp.val = 16) :
    exec (.call nnn) s = .next (raise .stackOverflow s) := by
  simp [exec, execCall, h]

theorem outOfRange_eq_false {base n : Nat} (h : n = 0 ∨ base + n - 1 ≤ 0xFFF) : outOfRange base n = false := by
  rw [Bool.eq_false_iff, Ne, outOfRange_iff]
  omega

theorem outOfRange_eq_true {base n : Nat} (hn : 1 ≤ n) (h : base + n - 1 > 0xFFF) :
    outOfRange base n = true := (outOfRange_iff _ _).2 ⟨hn, h⟩

theorem exec_ldB_ok {s : State} (x : Reg) (h : s.i.toNat + 2 ≤ 0xFFF) :
    exec (.ldB x) s =
      .next { s with mem := s.mem.writeBytes (indexBase s) (bcdDigits (s.reg x)) } := by
  simp only [exec, execLdB, indexBase]
  rw [outOfRange_eq_false (by omega), guarded_false]

theorem exec_ldB_out {s : State} (x : Reg) (h : s.i.toNat + 2 > 0xFFF) :
    exec (.ldB x) s = .next (raise .storeBounds s) := by
  simp only [exec, execLdB, indexBase]
  rw [outOfRange_eq_true (by omega) (by omega), guarded_true]

theorem exec_ldMemVx_ok {s : State} (x : Reg) (h : s.i.toNat + x.val ≤ 0xFFF) :
    exec (.ldMemVx x) s =
      .next { s with mem := s.mem.writeBytes (indexBase s) (blockOfRegs s x) } := by
  simp only [exec, execLdMemVx, indexBase, blockLength]
  rw [outOfRange_eq_false (by omega), guarded_false]

theorem exec_ldMemVx_out {s : State} (x : Reg) (h : s.i.toNat + x.val > 0xFFF) :
    exec (.ldMemVx x) s = .next (raise .storeBounds s) := by
  simp only [exec, execLdMemVx, indexBase, blockLength]
  rw [outOfRange_eq_true (by omega) (by omega), guarded_true]

theorem exec_ldVxMem_ok {s : State} (x : Reg) (h : s.i.toNat + x.val ≤ 0xFFF) :
    exec (.ldVxMem x) s = .next { s with v := regsFromMemory s x } := by
  simp only [exec, execLdVxMem, indexBase, blockLength]
  rw [outOfRange_eq_false (by omega), guarded_false]

theorem exec_ldVxMem_out {s : State} (x : Reg) (h : s.i.toNat + x.val > 0xFFF) :
    exec (.ldVxMem x) s = .next (raise .loadBounds s) := by
  simp only [exec, execLdVxMem, indexBase, blockLength]
  rw [outOfRange_eq_true (by omega) (by omega), guarded_true]

theorem exec_drw_ok {s : State} (x y : Reg) (n : Nat) (h : n = 0 ∨ s.i.toNat + n - 1 ≤ 0xFFF) :
    exec (.drw x y n) s =
      .next ({ s with disp := (drawSprite x y n s).disp }.setReg Reg.VF
        (collisionFlag (drawSprite x y n s).hit)) := by
  simp only [exec, execDrw, indexBase]
  rw [outOfRange_eq_false h, guarded_false]

theorem exec_drw_out {s : State} (x y : Reg) (n : Nat) (hn : 1 ≤ n) (h : s.i.toNat + n - 1 > 0xFFF) :
    exec (.drw x y n) s = .next (raise .loadBounds s) := by
  simp only [exec, execDrw, indexBase]
  rw [outOfRange_eq_true hn h, guarded_true]

theorem notAKey_eq_false {b : Byte} (h : b.toNat ≤ 15) : notAKey b = false := by simp [notAKey, h]
theorem notAKey_eq_true {b : Byte} (h : b.toNat > 15) : notAKey b = true := by simp [notAKey, h]

theorem exec_skp_ok {s : State} (x : Reg) (h : (s.reg x).toNat ≤ 15) :
    exec (.skp x) s = .next (skipIf (keyFlag s (s.reg x)) s) := by
  simp only [exec, execSkp]
  rw [notAKey_eq_false h, guarded_false]

theorem exec_skp_out {s : State} (x : Reg) (h : (s.reg x).toNat > 15) :
    exec (.skp x) s = .next (raise .keyIndex s) := by
  simp only [exec, execSkp]
  rw [notAKey_eq_true h, guarded_true]

theorem exec_sknp_ok {s : State} (x : Reg) (h : (s.reg x).toNat ≤ 15) :
    exec (.sknp x) s = .next (skipIf (!keyFlag s (s.reg x)) s) := by
  simp only [exec, execSknp]
  rw [notAKey_eq_false h, guarded_false]

theorem exec_sknp_out {s : State} (x : Reg) (h : (s.reg x).toNat > 15) :
    exec (.sknp x) s = .next (raise .keyIndex s) := by
  simp only [exec, execSknp]
  rw [notAKey_eq_true h, guarded_true]

/-! ### All instructions -/

/-- An instruction whose fault is due raises it and does nothing else (R192, R193). -/
theorem exec_of_fault_due {i : Instr} {s : State} {f : Fault} (h : faultOfInstr i s = some f) :
    exec i s = .next (raise f s) := by
  cases i <;> simp only [faultOfInstr, reduceCtorEq] at h
  case ret => split at h <;> cases h; exact exec_ret_empty ‹_›
  case call => split at h <;> cases h; exact exec_call_full _ ‹_›
  case drw x y n =>
    split at h <;> cases h
    next hc => exact exec_drw_out x y n hc.1 hc.2
  case skp => split at h <;> cases h; exact exec_skp_out _ ‹_›
  case sknp => split at h <;> cases h; exact exec_sknp_out _ ‹_›
  case ldB => split at h <;> cases h; exact exec_ldB_out _ ‹_›
  case ldMemVx => split at h <;> cases h; exact exec_ldMemVx_out _ ‹_›
  case ldVxMem => split at h <;> cases h; exact exec_ldVxMem_out _ ‹_›

/-- An instruction whose fault is not due answers a next state that leaves the fault register, the key flags,
the ports and the font table as they are. -/
theorem exec_of_no_fault_due {i : Instr} {s : State} (h : faultOfInstr i s = none) :
    ∃ t, exec i s = .next t ∧ t.fault = s.fault ∧ t.keys = s.keys ∧ t.port = s.port ∧
      t.mem.font = s.mem.font := by
  cases i <;> simp only [faultOfInstr] at h
  case ret =>
    have : 0 < s.sp.val := by by_contra hc; simp [show s.sp.val = 0 by omega] at h
    exact ⟨_, exec_ret_ok this, rfl, rfl, rfl, rfl⟩
  case call =>
    have : s.sp.val < 16 := by
      have := s.sp.isLt
      by_contra hc; simp [show s.sp.val = 16 by omega] at h
    exact ⟨_, exec_call_ok _ this, rfl, rfl, rfl, rfl⟩
  case drw x y n =>
    have : n = 0 ∨ s.i.toNat + n - 1 ≤ 0xFFF := by
      by_contra hc; rw [if_pos (by omega)] at h; cases h
    exact ⟨_, exec_drw_ok x y n this, rfl, rfl, rfl, rfl⟩
  case skp =>
    exact ⟨_, exec_skp_ok _ (by by_contra hc; rw [if_pos (by omega)] at h; cases h), rfl, rfl, rfl, rfl⟩
  case sknp =>
    exact ⟨_, exec_sknp_ok _ (by by_contra hc; rw [if_pos (by omega)] at h; cases h), rfl, rfl, rfl, rfl⟩
  case ldB =>
    exact ⟨_, exec_ldB_ok _ (by by_contra hc; rw [if_pos (by omega)] at h; cases h), rfl, rfl, rfl,
      writeBytes_font _ _ _⟩
  case ldMemVx =>
    exact ⟨_, exec_ldMemVx_ok _ (by by_contra hc; rw [if_pos (by omega)] at h; cases h), rfl, rfl, rfl,
      writeBytes_font _ _ _⟩
  case ldVxMem =>
    exact ⟨_, exec_ldVxMem_ok _ (by by_contra hc; rw [if_pos (by omega)] at h; cases h), rfl, rfl, rfl, rfl⟩
  all_goals exact ⟨_, rfl, rfl, rfl, rfl, rfl⟩

/-- Every instruction answers a next state, from every state. -/
theorem exec_answers_next (i : Instr) (s : State) : ∃ t, exec i s = .next t := by
  cases h : faultOfInstr i s with
  | some f => exact ⟨_, exec_of_fault_due h⟩
  | none => obtain ⟨t, ht, -⟩ := exec_of_no_fault_due h; exact ⟨t, ht⟩

/-- The fault of an instruction depends on SP, I and the registers alone. -/
theorem faultOfInstr_congr {s t : State} (hsp : t.sp = s.sp) (hi : t.i = s.i) (hv : t.v = s.v)
    (i : Instr) : faultOfInstr i t = faultOfInstr i s := by
  cases i <;> simp only [faultOfInstr, hsp, hi, reg_of_v hv]

end Sys2Proof.Machine
end

