-- ==== Sys2Proof/Laws/PerInstr.lean ====
section
/-! SUPPORT. What is proved instruction by instruction. The family RoundTrip: a well-formed instruction is what
its word decodes to (30_encoding.md rules R61, R63, R66). -/

namespace Sys2Proof.Laws.RoundTrip

/-- The word of the instruction, if it is well-formed, decodes to it. -/
def Statement (i : Instr) : Prop := i.wellFormed = true → decodeWord (encode i) = some i

theorem cls : Statement .cls := fun _ =>
  decodeWord_of_row (row := opcodeTable[0]) (List.getElem_mem _) (by decide)

theorem ret : Statement .ret := fun _ =>
  decodeWord_of_row (row := opcodeTable[1]) (List.getElem_mem _) (by decide)

theorem jp (nnn : BitVec 12) : Statement (.jp nnn) := fun _ =>
  (decodeWord_of_row (row := opcodeTable[2]) (List.getElem_mem _)
    ((wordNNN_and _ _).trans (by decide))).trans (by simp [opcodeTable, opcodeRowsA, opcodeRowsB, opcodeRowsC])

theorem call (nnn : BitVec 12) : Statement (.call nnn) := fun _ =>
  (decodeWord_of_row (row := opcodeTable[3]) (List.getElem_mem _)
    ((wordNNN_and _ _).trans (by decide))).trans (by simp [opcodeTable, opcodeRowsA, opcodeRowsB, opcodeRowsC])

theorem seImm (x : Reg) (kk : Byte) : Statement (.seImm x kk) := fun _ =>
  (decodeWord_of_row (row := opcodeTable[4]) (List.getElem_mem _)
    ((wordXKK_and _ _ _).trans (by decide))).trans (by simp [opcodeTable, opcodeRowsA, opcodeRowsB, opcodeRowsC])

theorem sneImm (x : Reg) (kk : Byte) : Statement (.sneImm x kk) := fun _ =>
  (decodeWord_of_row (row := opcodeTable[5]) (List.getElem_mem _)
    ((wordXKK_and _ _ _).trans (by decide))).trans (by simp [opcodeTable, opcodeRowsA, opcodeRowsB, opcodeRowsC])

theorem seReg (x : Reg) (y : Reg) : Statement (.seReg x y) := fun _ =>
  (decodeWord_of_row (row := opcodeTable[6]) (List.getElem_mem _)
    ((wordXYC_and _ _ _ _).trans (by decide))).trans (by simp [opcodeTable, opcodeRowsA, opcodeRowsB, opcodeRowsC])

theorem ldImm (x : Reg) (kk : Byte) : Statement (.ldImm x kk) := fun _ =>
  (decodeWord_of_row (row := opcodeTable[7]) (List.getElem_mem _)
    ((wordXKK_and _ _ _).trans (by decide))).trans (by simp [opcodeTable, opcodeRowsA, opcodeRowsB, opcodeRowsC])

theorem addImm (x : Reg) (kk : Byte) : Statement (.addImm x kk) := fun _ =>
  (decodeWord_of_row (row := opcodeTable[8]) (List.getElem_mem _)
    ((wordXKK_and _ _ _).trans (by decide))).trans (by simp [opcodeTable, opcodeRowsA, opcodeRowsB, opcodeRowsC])

theorem ldReg (x : Reg) (y : Reg) : Statement (.ldReg x y) := fun _ =>
  (decodeWord_of_row (row := opcodeTable[9]) (List.getElem_mem _)
    ((wordXYC_and _ _ _ _).trans (by decide))).trans (by simp [opcodeTable, opcodeRowsA, opcodeRowsB, opcodeRowsC])

theorem or (x : Reg) (y : Reg) : Statement (.or x y) := fun _ =>
  (decodeWord_of_row (row := opcodeTable[10]) (List.getElem_mem _)
    ((wordXYC_and _ _ _ _).trans (by decide))).trans (by simp [opcodeTable, opcodeRowsA, opcodeRowsB, opcodeRowsC])

theorem and (x : Reg) (y : Reg) : Statement (.and x y) := fun _ =>
  (decodeWord_of_row (row := opcodeTable[11]) (List.getElem_mem _)
    ((wordXYC_and _ _ _ _).trans (by decide))).trans (by simp [opcodeTable, opcodeRowsA, opcodeRowsB, opcodeRowsC])

theorem xor (x : Reg) (y : Reg) : Statement (.xor x y) := fun _ =>
  (decodeWord_of_row (row := opcodeTable[12]) (List.getElem_mem _)
    ((wordXYC_and _ _ _ _).trans (by decide))).trans (by simp [opcodeTable, opcodeRowsA, opcodeRowsB, opcodeRowsC])

theorem addReg (x : Reg) (y : Reg) : Statement (.addReg x y) := fun _ =>
  (decodeWord_of_row (row := opcodeTable[13]) (List.getElem_mem _)
    ((wordXYC_and _ _ _ _).trans (by decide))).trans (by simp [opcodeTable, opcodeRowsA, opcodeRowsB, opcodeRowsC])

theorem sub (x : Reg) (y : Reg) : Statement (.sub x y) := fun _ =>
  (decodeWord_of_row (row := opcodeTable[14]) (List.getElem_mem _)
    ((wordXYC_and _ _ _ _).trans (by decide))).trans (by simp [opcodeTable, opcodeRowsA, opcodeRowsB, opcodeRowsC])

theorem shr (x : Reg) (y : Reg) : Statement (.shr x y) := fun _ =>
  (decodeWord_of_row (row := opcodeTable[15]) (List.getElem_mem _)
    ((wordXYC_and _ _ _ _).trans (by decide))).trans (by simp [opcodeTable, opcodeRowsA, opcodeRowsB, opcodeRowsC])

theorem subn (x : Reg) (y : Reg) : Statement (.subn x y) := fun _ =>
  (decodeWord_of_row (row := opcodeTable[16]) (List.getElem_mem _)
    ((wordXYC_and _ _ _ _).trans (by decide))).trans (by simp [opcodeTable, opcodeRowsA, opcodeRowsB, opcodeRowsC])

theorem shl (x : Reg) (y : Reg) : Statement (.shl x y) := fun _ =>
  (decodeWord_of_row (row := opcodeTable[17]) (List.getElem_mem _)
    ((wordXYC_and _ _ _ _).trans (by decide))).trans (by simp [opcodeTable, opcodeRowsA, opcodeRowsB, opcodeRowsC])

theorem sneReg (x : Reg) (y : Reg) : Statement (.sneReg x y) := fun _ =>
  (decodeWord_of_row (row := opcodeTable[18]) (List.getElem_mem _)
    ((wordXYC_and _ _ _ _).trans (by decide))).trans (by simp [opcodeTable, opcodeRowsA, opcodeRowsB, opcodeRowsC])

theorem ldI (nnn : BitVec 12) : Statement (.ldI nnn) := fun _ =>
  (decodeWord_of_row (row := opcodeTable[19]) (List.getElem_mem _)
    ((wordNNN_and _ _).trans (by decide))).trans (by simp [opcodeTable, opcodeRowsA, opcodeRowsB, opcodeRowsC])

theorem jpV0 (nnn : BitVec 12) : Statement (.jpV0 nnn) := fun _ =>
  (decodeWord_of_row (row := opcodeTable[20]) (List.getElem_mem _)
    ((wordNNN_and _ _).trans (by decide))).trans (by simp [opcodeTable, opcodeRowsA, opcodeRowsB, opcodeRowsC])

theorem rnd (x : Reg) (kk : Byte) : Statement (.rnd x kk) := fun _ =>
  (decodeWord_of_row (row := opcodeTable[21]) (List.getElem_mem _)
    ((wordXKK_and _ _ _).trans (by decide))).trans (by simp [opcodeTable, opcodeRowsA, opcodeRowsB, opcodeRowsC])

theorem drw (x : Reg) (y : Reg) (n : Nat) : Statement (.drw x y n) := fun h => by
  have hn : n ≤ 15 := by simpa [Instr.wellFormed, Instr.rowCountFits] using h
  have := decodeWord_of_row (row := opcodeTable[22]) (List.getElem_mem _) (w := encode (.drw x y n))
    ((wordXYN_and _ _ _ _).trans (by decide))
  simpa [encode, opcodeTable, opcodeRowsA, opcodeRowsB, opcodeRowsC, Nat.mod_eq_of_lt (by omega : n < 16)] using this

theorem skp (x : Reg) : Statement (.skp x) := fun _ =>
  (decodeWord_of_row (row := opcodeTable[23]) (List.getElem_mem _)
    ((wordXCC_and _ _ _).trans (by decide))).trans (by simp [opcodeTable, opcodeRowsA, opcodeRowsB, opcodeRowsC])

theorem sknp (x : Reg) : Statement (.sknp x) := fun _ =>
  (decodeWord_of_row (row := opcodeTable[24]) (List.getElem_mem _)
    ((wordXCC_and _ _ _).trans (by decide))).trans (by simp [opcodeTable, opcodeRowsA, opcodeRowsB, opcodeRowsC])

theorem ldVxDt (x : Reg) : Statement (.ldVxDt x) := fun _ =>
  (decodeWord_of_row (row := opcodeTable[25]) (List.getElem_mem _)
    ((wordXCC_and _ _ _).trans (by decide))).trans (by simp [opcodeTable, opcodeRowsA, opcodeRowsB, opcodeRowsC])

theorem ldVxK (x : Reg) : Statement (.ldVxK x) := fun _ =>
  (decodeWord_of_row (row := opcodeTable[26]) (List.getElem_mem _)
    ((wordXCC_and _ _ _).trans (by decide))).trans (by simp [opcodeTable, opcodeRowsA, opcodeRowsB, opcodeRowsC])

theorem ldDtVx (x : Reg) : Statement (.ldDtVx x) := fun _ =>
  (decodeWord_of_row (row := opcodeTable[27]) (List.getElem_mem _)
    ((wordXCC_and _ _ _).trans (by decide))).trans (by simp [opcodeTable, opcodeRowsA, opcodeRowsB, opcodeRowsC])

theorem ldStVx (x : Reg) : Statement (.ldStVx x) := fun _ =>
  (decodeWord_of_row (row := opcodeTable[28]) (List.getElem_mem _)
    ((wordXCC_and _ _ _).trans (by decide))).trans (by simp [opcodeTable, opcodeRowsA, opcodeRowsB, opcodeRowsC])

theorem addI (x : Reg) : Statement (.addI x) := fun _ =>
  (decodeWord_of_row (row := opcodeTable[29]) (List.getElem_mem _)
    ((wordXCC_and _ _ _).trans (by decide))).trans (by simp [opcodeTable, opcodeRowsA, opcodeRowsB, opcodeRowsC])

theorem ldF (x : Reg) : Statement (.ldF x) := fun _ =>
  (decodeWord_of_row (row := opcodeTable[30]) (List.getElem_mem _)
    ((wordXCC_and _ _ _).trans (by decide))).trans (by simp [opcodeTable, opcodeRowsA, opcodeRowsB, opcodeRowsC])

theorem ldB (x : Reg) : Statement (.ldB x) := fun _ =>
  (decodeWord_of_row (row := opcodeTable[31]) (List.getElem_mem _)
    ((wordXCC_and _ _ _).trans (by decide))).trans (by simp [opcodeTable, opcodeRowsA, opcodeRowsB, opcodeRowsC])

theorem ldMemVx (x : Reg) : Statement (.ldMemVx x) := fun _ =>
  (decodeWord_of_row (row := opcodeTable[32]) (List.getElem_mem _)
    ((wordXCC_and _ _ _).trans (by decide))).trans (by simp [opcodeTable, opcodeRowsA, opcodeRowsB, opcodeRowsC])

theorem ldVxMem (x : Reg) : Statement (.ldVxMem x) := fun _ =>
  (decodeWord_of_row (row := opcodeTable[33]) (List.getElem_mem _)
    ((wordXCC_and _ _ _).trans (by decide))).trans (by simp [opcodeTable, opcodeRowsA, opcodeRowsB, opcodeRowsC])

end Sys2Proof.Laws.RoundTrip
end

