-- ==== Sys2Proof/Laws/Step.lean ====
section
/-! SUPPORT. The step, said once for each kind of tick of 40_cycle.md rule R89, and the one inversion lemma
`step_cases` from which invariants follow. -/

namespace Sys2Proof.Machine

/-! ### The state in which a tick dispatches -/

section
variable (s : State)

@[simp] theorem atDispatch_v : (atDispatch s).v = s.v := rfl
@[simp] theorem atDispatch_i : (atDispatch s).i = s.i := rfl
@[simp] theorem atDispatch_pc : (atDispatch s).pc = s.pc + 2 := rfl
@[simp] theorem atDispatch_stack : (atDispatch s).stack = s.stack := rfl
@[simp] theorem atDispatch_sp : (atDispatch s).sp = s.sp := rfl
@[simp] theorem atDispatch_dt : (atDispatch s).dt = s.dt := rfl
@[simp] theorem atDispatch_st : (atDispatch s).st = s.st := rfl
@[simp] theorem atDispatch_mem : (atDispatch s).mem = s.mem := rfl
@[simp] theorem atDispatch_disp : (atDispatch s).disp = s.disp := rfl
@[simp] theorem atDispatch_keys : (atDispatch s).keys = nextKeys s := rfl
@[simp] theorem atDispatch_waiting : (atDispatch s).waiting = s.waiting := rfl
@[simp] theorem atDispatch_keyreg : (atDispatch s).keyreg = s.keyreg := rfl
@[simp] theorem atDispatch_fault : (atDispatch s).fault = s.fault := rfl
@[simp] theorem atDispatch_tone : (atDispatch s).port.tone = false := rfl
@[simp] theorem atDispatch_diag : (atDispatch s).port.diag = none := rfl
@[simp] theorem atDispatch_rnd : (atDispatch s).port.rnd = (nextInput s.port).rnd := rfl
@[simp] theorem atDispatch_inputs : (atDispatch s).port.inputs = s.port.inputs.tail := rfl
@[simp] theorem atDispatch_ticks : (atDispatch s).port.ticks = s.port.ticks + 1 := rfl
@[simp] theorem atDispatch_loadOpen : (atDispatch s).port.loadOpen = false := rfl

@[simp] theorem atDispatch_reg (x : Reg) : (atDispatch s).reg x = s.reg x := rfl

end

/-- A word address brought back to the faulting instruction: (a + 2) − 2 = a. -/
theorem add_two_sub_two (a : Word) : a + 2 - 2 = a := by
  rw [BitVec.add_sub_cancel]

/-! ### Each kind of tick -/

/-- A dead tick (R80). -/
theorem step_of_fault {s : State} {f : Fault} (h : s.fault = some f) : step s = .next (openTick s) := by
  simp [step, tick, h]

/-- A wait or resume tick (R81, R82). -/
theorem step_of_waiting {s : State} (h : s.fault = none) (hw : s.waiting = true) :
    step s = .next (gateTick (nextInput s.port).pick (latch (nextInput s.port) (openTick s))) := by
  simp [step, tick, h, hw]

theorem step_of_executes {s : State} (h : Executes s) :
    step s = executingTick (latch (nextInput s.port) (openTick s)) := by
  simp [step, tick, h.1, h.2]

/-- An executing tick whose fetch faults (R42). -/
theorem step_of_unfetchable {s : State} (h : Executes s) (hp : s.pc.toNat + 1 > 0xFFF) :
    step s = .next (takeFault s.pc .fetchBounds (latch (nextInput s.port) (openTick s))) := by
  rw [step_of_executes h]
  simp only [executingTick, latch_mem, openTick_mem, latch_pc, openTick_pc, fetch_of_gt hp]

theorem step_of_fetches {s : State} (h : Fetches s) :
    step s = closeTick (dispatch s.pc (wordAtPc s) (atDispatch s)) := by
  rw [step_of_executes h.1]
  simp only [executingTick, latch_mem, openTick_mem, latch_pc, openTick_pc, fetch_of_le h.2]
  rfl

/-- An executing tick of an unmatched word (R71). -/
theorem step_of_unmatched {s : State} (h : Fetches s) (hd : decodeWord (wordAtPc s) = none) :
    step s = .next (timerStep (unmatchedNoOp s.pc (wordAtPc s) (atDispatch s))) := by
  rw [step_of_fetches h]
  simp [dispatch, hd, closeTick, h.1.1]

/-- An executing tick of an instruction (R84). -/
theorem step_of_instr {s : State} {i : Instr} (h : FetchesInstr s i) :
    step s = closeTick (exec i (atDispatch s)) := by
  rw [step_of_fetches h.1]
  simp [dispatch, h.2]

/-- An executing tick of an instruction whose fault is due (R192, R193). -/
theorem step_of_instr_fault {s : State} {i : Instr} {f : Fault} (h : FetchesInstr s i)
    (hf : faultOfInstr i s = some f) : step s = .next (raise f (atDispatch s)) := by
  have hf' : faultOfInstr i (atDispatch s) = some f :=
    (faultOfInstr_congr (s := s) (t := atDispatch s) rfl rfl rfl i).trans hf
  rw [step_of_instr h, exec_of_fault_due hf']
  simp [closeTick]

/-- An executing tick of an instruction whose fault is not due: dispatch, then the timer step (R84, R87). -/
theorem step_of_instr_ok {s t : State} {i : Instr} (h : FetchesInstr s i)
    (ht : exec i (atDispatch s) = .next t) (hf : t.fault = none) : step s = .next (timerStep t) := by
  rw [step_of_instr h, ht]
  simp [closeTick, hf]

theorem exec_atDispatch_of_no_fault_due {s : State} {i : Instr} (h : FetchesInstr s i)
    (hf : faultOfInstr i s = none) :
    ∃ t, exec i (atDispatch s) = .next t ∧ t.fault = none ∧ t.keys = nextKeys s ∧
      t.port = (atDispatch s).port ∧ t.mem.font = s.mem.font := by
  have hf' : faultOfInstr i (atDispatch s) = none :=
    (faultOfInstr_congr (s := s) (t := atDispatch s) rfl rfl rfl i).trans hf
  obtain ⟨t, ht, h1, h2, h3, h4⟩ := exec_of_no_fault_due hf'
  exact ⟨t, ht, h1.trans h.1.1.1, h2, h3, h4⟩

/-! ### Inversion -/

/-- Everything a step can do: the six kinds of tick, each with the state it leaves. -/
theorem step_cases {s t : State} (h : step s = .next t) :
    (∃ f, s.fault = some f ∧ t = openTick s) ∨
    (s.fault = none ∧ s.waiting = true ∧
      t = gateTick (nextInput s.port).pick (latch (nextInput s.port) (openTick s))) ∨
    (Executes s ∧ s.pc.toNat + 1 > 0xFFF ∧
      t = takeFault s.pc .fetchBounds (latch (nextInput s.port) (openTick s))) ∨
    (Fetches s ∧ decodeWord (wordAtPc s) = none ∧
      t = timerStep (unmatchedNoOp s.pc (wordAtPc s) (atDispatch s))) ∨
    (∃ i f, FetchesInstr s i ∧ faultOfInstr i s = some f ∧ t = raise f (atDispatch s)) ∨
    (∃ i u, FetchesInstr s i ∧ faultOfInstr i s = none ∧ exec i (atDispatch s) = .next u ∧
      u.fault = none ∧ t = timerStep u) := by
  cases hf : s.fault with
  | some f =>
    rw [step_of_fault hf] at h
    cases h
    exact .inl ⟨f, rfl, rfl⟩
  | none =>
    cases hw : s.waiting with
    | true =>
      rw [step_of_waiting hf hw] at h
      cases h
      exact .inr (.inl ⟨rfl, rfl, rfl⟩)
    | false =>
      have hx : Executes s := ⟨hf, hw⟩
      by_cases hp : s.pc.toNat + 1 > 0xFFF
      · rw [step_of_unfetchable hx hp] at h
        cases h
        exact .inr (.inr (.inl ⟨hx, hp, rfl⟩))
      · have hfe : Fetches s := ⟨hx, by omega⟩
        cases hd : decodeWord (wordAtPc s) with
        | none =>
          rw [step_of_unmatched hfe hd] at h
          cases h
          exact .inr (.inr (.inr (.inl ⟨hfe, rfl, rfl⟩)))
        | some i =>
          have hi : FetchesInstr s i := ⟨hfe, hd⟩
          cases hq : faultOfInstr i s with
          | some f =>
            rw [step_of_instr_fault hi hq] at h
            cases h
            exact .inr (.inr (.inr (.inr (.inl ⟨i, f, hi, hq, rfl⟩))))
          | none =>
            obtain ⟨u, hu, hu0, -⟩ := exec_atDispatch_of_no_fault_due hi hq
            rw [step_of_instr_ok hi hu hu0] at h
            cases h
            exact .inr (.inr (.inr (.inr (.inr ⟨i, u, hi, hq, hu, hu0, rfl⟩))))

/-- A step answers a next state, from every state: no fault and no refusal of the host's kind (R80). -/
theorem step_answers_next (s : State) : ∃ t, step s = .next t := by
  cases hf : s.fault with
  | some f => exact ⟨_, step_of_fault hf⟩
  | none =>
    cases hw : s.waiting with
    | true => exact ⟨_, step_of_waiting hf hw⟩
    | false =>
      have hx : Executes s := ⟨hf, hw⟩
      by_cases hp : s.pc.toNat + 1 > 0xFFF
      · exact ⟨_, step_of_unfetchable hx hp⟩
      · have hfe : Fetches s := ⟨hx, by omega⟩
        cases hd : decodeWord (wordAtPc s) with
        | none => exact ⟨_, step_of_unmatched hfe hd⟩
        | some i =>
          have hi : FetchesInstr s i := ⟨hfe, hd⟩
          cases hq : faultOfInstr i s with
          | some f => exact ⟨_, step_of_instr_fault hi hq⟩
          | none =>
            obtain ⟨u, hu, hu0, -⟩ := exec_atDispatch_of_no_fault_due hi hq
            exact ⟨_, step_of_instr_ok hi hu hu0⟩

/-! ### Runs -/

@[simp] theorem run_zero (s : State) : Sys2Proof.core.run 0 s = .next s := rfl

theorem run_succ {s t : State} (n : Nat) (h : step s = .next t) :
    Sys2Proof.core.run (n + 1) s = Sys2Proof.core.run n t := by
  have h' : Sys2Proof.core.step s = .next t := h
  simp only [Host.Core.run, h']

/-- A tick completes exactly when it is an executing one with no fault due. -/
theorem completes_iff {s : State} : s.completes = true ↔ Executes s ∧ faultDue s = none := by
  simp [State.completes, Executes]

@[simp] theorem completedTicks_zero (s : State) : completedTicks 0 s = 0 := rfl

/-- The count of a run from its first tick. -/
theorem completedTicks_succ {s t : State} (n : Nat) (h : step s = .next t) :
    completedTicks (n + 1) s = (if s.completes then 1 else 0) + completedTicks n t := by
  simp only [completedTicks, h]

/-- What holds of a run holds of its first state and of the rest of the run. -/
theorem holdsFor_succ {P : State → Prop} {s t : State} (n : Nat) (h : step s = .next t) :
    HoldsFor P (n + 1) s ↔ P s ∧ HoldsFor P n t := by
  refine ⟨fun hr => ⟨hr.1, hr.2 t h⟩, fun hr => ⟨hr.1, fun u hu => ?_⟩⟩
  rw [h] at hu
  cases hu
  exact hr.2

/-- A run answers a next state, from every state. -/
theorem run_answers_next (n : Nat) (s : State) : ∃ t, Sys2Proof.core.run n s = .next t := by
  induction n generalizing s with
  | zero => exact ⟨s, rfl⟩
  | succ n ih =>
    obtain ⟨t, ht⟩ := step_answers_next s
    rw [run_succ n ht]
    exact ih t

end Sys2Proof.Machine
end

