-- ==== Sys2Proof/Tests/Slice0.lean ====
section
/-! SUPPORT. Tests of the model. Expected results are those of spec/95_test_vectors.md (the vector is named at
each test) or of the rule named there; and, for every statement of Obligations.lean with hypotheses, a witness
that meets them. -/

namespace Sys2Proof.Tests

open Sys2Proof.Machine

/-! ### Helpers -/

/-- No key pressed. -/
def noKeys : Vector Bool 16 := Vector.replicate 16 false

/-- The keys of a list pressed. -/
def pressed (ks : List Reg) : Vector Bool 16 := Vector.ofFn fun k => decide (k ∈ ks)

/-- The reset state of the test vectors, with one tick's inputs lined up: the keys `ks` and rnd = A7. -/
def resetState (ks : List Reg) : State :=
  { State.resetWith Config.recommendedFont with
    port := { Port.reset with inputs := [{ keys := pressed ks, rnd := 0xA7, pick := 0 }] } }

/-- The start state of a vector: a word at 0x200 and registers given by a list. -/
def start (w : Nat) (regs : List (Reg × Byte)) (ks : List Reg := []) : State :=
  (regs.foldl (fun s p => s.setReg p.1 p.2) (resetState ks)).withFetchWord 16 w

/-- The state after one tick. -/
def after (s : State) : Option State :=
  match step s with
  | .next t => some t
  | .fault _ => none
  | .refused _ => none

/-- What a test looks at after one tick. -/
def observe {α : Type} (s : State) (f : State → α) : Option α := (after s).map f

/-- The codes and address a fault test looks at. -/
def faultAndPc (s : State) : Nat × Nat := (faultCode s.fault, s.pc.toNat)

/-! ### WellFormed: each check refuses an ill-formed term -/

theorem test_rowCount_16_is_ill_formed : (Instr.drw 0 1 16).wellFormed = false := by decide
theorem test_rowCount_15_is_well_formed : (Instr.drw 0 1 15).wellFormed = true := by decide

/-! ### Decoding: for every constructor a word written from R66, `pattern` and the fields of R61 -/

theorem test_decode_00E0 : decodeWord 0x00E0 = some .cls := by decide
theorem test_decode_00EE : decodeWord 0x00EE = some .ret := by decide
theorem test_decode_1ABC : decodeWord 0x1ABC = some (.jp 0xABC) := by decide
theorem test_decode_2300 : decodeWord 0x2300 = some (.call 0x300) := by decide
theorem test_decode_3F01 : decodeWord 0x3F01 = some (.seImm 15 0x01) := by decide
theorem test_decode_4006 : decodeWord 0x4006 = some (.sneImm 0 0x06) := by decide
theorem test_decode_5120 : decodeWord 0x5120 = some (.seReg 1 2) := by decide
theorem test_decode_6ABC : decodeWord 0x6ABC = some (.ldImm 10 0xBC) := by decide
theorem test_decode_7AFF : decodeWord 0x7AFF = some (.addImm 10 0xFF) := by decide
theorem test_decode_8120 : decodeWord 0x8120 = some (.ldReg 1 2) := by decide
theorem test_decode_8121 : decodeWord 0x8121 = some (.or 1 2) := by decide
theorem test_decode_8122 : decodeWord 0x8122 = some (.and 1 2) := by decide
theorem test_decode_8123 : decodeWord 0x8123 = some (.xor 1 2) := by decide
theorem test_decode_8014 : decodeWord 0x8014 = some (.addReg 0 1) := by decide
theorem test_decode_8015 : decodeWord 0x8015 = some (.sub 0 1) := by decide
theorem test_decode_81F6 : decodeWord 0x81F6 = some (.shr 1 15) := by decide
theorem test_decode_8017 : decodeWord 0x8017 = some (.subn 0 1) := by decide
theorem test_decode_810E : decodeWord 0x810E = some (.shl 1 0) := by decide
theorem test_decode_9120 : decodeWord 0x9120 = some (.sneReg 1 2) := by decide
theorem test_decode_A300 : decodeWord 0xA300 = some (.ldI 0x300) := by decide
theorem test_decode_B3FF : decodeWord 0xB3FF = some (.jpV0 0x3FF) := by decide
theorem test_decode_C30F : decodeWord 0xC30F = some (.rnd 3 0x0F) := by decide
theorem test_decode_D012 : decodeWord 0xD012 = some (.drw 0 1 2) := by decide
theorem test_decode_E19E : decodeWord 0xE19E = some (.skp 1) := by decide
theorem test_decode_E1A1 : decodeWord 0xE1A1 = some (.sknp 1) := by decide
theorem test_decode_F207 : decodeWord 0xF207 = some (.ldVxDt 2) := by decide
theorem test_decode_F10A : decodeWord 0xF10A = some (.ldVxK 1) := by decide
theorem test_decode_F015 : decodeWord 0xF015 = some (.ldDtVx 0) := by decide
theorem test_decode_F018 : decodeWord 0xF018 = some (.ldStVx 0) := by decide
theorem test_decode_F21E : decodeWord 0xF21E = some (.addI 2) := by decide
theorem test_decode_F029 : decodeWord 0xF029 = some (.ldF 0) := by decide
theorem test_decode_F033 : decodeWord 0xF033 = some (.ldB 0) := by decide
theorem test_decode_F255 : decodeWord 0xF255 = some (.ldMemVx 2) := by decide
theorem test_decode_F265 : decodeWord 0xF265 = some (.ldVxMem 2) := by decide

/-- T6.5 to T6.12 and R67: words that no row matches. -/
theorem test_unmatched_words :
    ([0x0000, 0x00E1, 0x01EE, 0x5121, 0x8128, 0xE19F, 0xF1FF, 0x9121].map decodeWord).all Option.isNone
      = true := by decide

theorem test_table_word_is_big_endian : decodeTableWord 16 0x6ABC = some (.ldImm 10 0xBC) := by decide
theorem test_bytes_big_endian :
    decodeBytes [0x12, 0x34, 0xFF] = .instr (.jp 0x234) [0xFF] := by decide
theorem test_bytes_too_short : decodeBytes [0x12] = .tooShort [0x12] := by decide


/-! ### Control transfer (T1) -/

/-- T1.1 -/
theorem test_jp :
    observe (start 0x1ABC []) (fun t => t.pc)
      = some 0x0ABC := by decide

/-- T1.4 -/
theorem test_jp_odd_target :
    observe (start 0x1201 []) (fun t => t.pc)
      = some 0x0201 := by decide

/-- T1.5 -/
theorem test_call_pushes_next_address :
    observe (start 0x2300 []) (fun t => (t.stack[0], t.sp, t.pc))
      = some (0x0202, 1, 0x0300) := by decide

/-- T1.7 -/
theorem test_call_overflow :
    observe ({ start 0x2300 [] with sp := 16 }) (fun t => (faultAndPc t, t.sp, t.stack[15]))
      = some ((4, 0x200), 16, 0) := by decide

/-- T1.8 -/
theorem test_ret :
    observe ({ start 0x00EE [] with sp := 1, stack := (Vector.replicate 16 0).set 0 0x0206 }) (fun t => (t.sp, t.pc, t.stack[0]))
      = some (0, 0x0206, 0x0206) := by decide

/-- T1.9 -/
theorem test_ret_underflow :
    observe (start 0x00EE []) (fun t => faultAndPc t)
      = some (5, 0x200) := by decide

/-- T1.11 -/
theorem test_jpV0_not_masked :
    observe (start 0xBFFF [(0, 0xFF)]) (fun t => t.pc)
      = some 0x10FE := by decide

/-- T1.12 -/
theorem test_jpV0_adds_V0_alone :
    observe (start 0xB3FF [(0, 0x01), (3, 0x09)]) (fun t => t.pc)
      = some 0x0400 := by decide

/-- T1.22 -/
theorem test_seImm_skips :
    observe (start 0x3F01 [(15, 0x01)]) (fun t => t.pc)
      = some 0x204 := by decide

/-- T1.14 -/
theorem test_seImm_no_skip :
    observe (start 0x3300 [(3, 0x02)]) (fun t => t.pc)
      = some 0x202 := by decide

/-- T1.15 -/
theorem test_sneImm_no_skip :
    observe (start 0x4005 [(0, 0x05)]) (fun t => t.pc)
      = some 0x202 := by decide

/-- T1.16 -/
theorem test_sneImm_skips :
    observe (start 0x4006 [(0, 0x05)]) (fun t => t.pc)
      = some 0x204 := by decide

/-- T1.17 -/
theorem test_seReg_skips :
    observe (start 0x5120 [(1, 0x7F), (2, 0x7F)]) (fun t => t.pc)
      = some 0x204 := by decide

/-- T1.18 -/
theorem test_seReg_no_skip :
    observe (start 0x5120 [(1, 0x7F), (2, 0x7E)]) (fun t => t.pc)
      = some 0x202 := by decide

/-- T1.20 -/
theorem test_sneReg_skips :
    observe (start 0x9120 [(1, 0x01), (2, 0x02)]) (fun t => t.pc)
      = some 0x204 := by decide

/-- T1.21 -/
theorem test_sneReg_no_skip :
    observe (start 0x9120 [(1, 0x02), (2, 0x02)]) (fun t => t.pc)
      = some 0x202 := by decide

/-! ### Load and ALU (T2) -/

/-- T2.1 -/
theorem test_ldImm :
    observe (start 0x6ABC []) (fun t => (t.reg 10, t.pc))
      = some (0xBC, 0x202) := by decide

/-- T2.4 -/
theorem test_addImm_wraps_without_flag :
    observe (start 0x7AFF [(10, 0x01), (15, 0x09)]) (fun t => (t.reg 10, t.reg 15))
      = some (0x00, 0x09) := by decide

/-- T2.5 -/
theorem test_ldReg :
    observe (start 0x8120 [(2, 0x5A)]) (fun t => (t.reg 1, t.reg 2))
      = some (0x5A, 0x5A) := by decide

/-- T2.6 -/
theorem test_or_keeps_VF :
    observe (start 0x8121 [(1, 0xF0), (2, 0x0F), (15, 0x07)]) (fun t => (t.reg 1, t.reg 15))
      = some (0xFF, 0x07) := by decide

/-- T2.7 -/
theorem test_and :
    observe (start 0x8122 [(1, 0xFC), (2, 0x3F)]) (fun t => t.reg 1)
      = some 0x3C := by decide

/-- T2.8 -/
theorem test_xor :
    observe (start 0x8123 [(1, 0xFF), (2, 0x0F)]) (fun t => t.reg 1)
      = some 0xF0 := by decide

/-- S2 vector a -/
theorem test_addReg_carry :
    observe (start 0x8014 [(0, 0xFF), (1, 0x01)]) (fun t => (t.reg 0, t.reg 1, t.reg 15))
      = some (0x00, 0x01, 0x01) := by decide

/-- T2.11 -/
theorem test_addReg_into_VF :
    observe (start 0x8F14 [(15, 0x80), (1, 0x80)]) (fun t => t.reg 15)
      = some 0x01 := by decide

/-- S3 vector b -/
theorem test_sub_borrow :
    observe (start 0x8015 [(0, 0x02), (1, 0x05)]) (fun t => (t.reg 0, t.reg 15))
      = some (0xFD, 0x00) := by decide

/-- T2.13 -/
theorem test_sub_equal :
    observe (start 0x8015 [(0, 0x07), (1, 0x07)]) (fun t => (t.reg 0, t.reg 15))
      = some (0x00, 0x01) := by decide

/-- T2.18 -/
theorem test_shr_ignores_y :
    observe (start 0x81F6 [(1, 0x05), (15, 0xAA)]) (fun t => (t.reg 1, t.reg 15))
      = some (0x02, 0x01) := by decide

/-- T2.20 -/
theorem test_shr_of_VF :
    observe (start 0x8F06 [(15, 0x03)]) (fun t => t.reg 15)
      = some 0x00 := by decide

/-- T2.15 -/
theorem test_subn_borrow :
    observe (start 0x8017 [(0, 0x05), (1, 0x02)]) (fun t => (t.reg 0, t.reg 15))
      = some (0xFD, 0x00) := by decide

/-- T2.16 -/
theorem test_subn :
    observe (start 0x8017 [(0, 0x02), (1, 0x05)]) (fun t => (t.reg 0, t.reg 15))
      = some (0x03, 0x01) := by decide

/-- T2.21 -/
theorem test_shl :
    observe (start 0x810E [(1, 0x81)]) (fun t => (t.reg 1, t.reg 15))
      = some (0x02, 0x01) := by decide

/-- T2.23 -/
theorem test_shl_of_VF :
    observe (start 0x8F0E [(15, 0x81)]) (fun t => t.reg 15)
      = some 0x02 := by decide

/-- T2.25 -/
theorem test_rnd_masked :
    observe (start 0xC30F []) (fun t => t.reg 3)
      = some 0x07 := by decide

/-- T2.27 -/
theorem test_rnd_all_bits :
    observe (start 0xC3FF []) (fun t => t.reg 3)
      = some 0xA7 := by decide

/-! ### Index and memory (T3) -/

/-- T3.1 -/
theorem test_ldI :
    observe (start 0xA300 []) (fun t => t.i)
      = some 0x0300 := by decide

/-- T3.3 -/
theorem test_addI_no_fault :
    observe ({ start 0xF01E [(0, 0x01)] with i := 0x0FFF }) (fun t => (t.i, t.reg 15, faultCode t.fault))
      = some (0x1000, 0x00, 0) := by decide

/-- T3.4 -/
theorem test_addI_wraps :
    observe ({ start 0xF01E [(0, 0x02)] with i := 0xFFFF }) (fun t => (t.i, t.reg 15))
      = some (0x0001, 0x00) := by decide

/-- T3.6 -/
theorem test_ldF_not_masked :
    observe (start 0xF029 [(0, 0xFF)]) (fun t => t.i)
      = some 0x04FB := by decide

/-- T3.7 -/
theorem test_ldB_at_the_top :
    observe ({ start 0xF033 [(0, 0xFF)] with i := 0x0FFD }) (fun t => (t.mem.read 0xFFD, t.mem.read 0xFFE, t.mem.read 0xFFF, t.i))
      = some (0x02, 0x05, 0x05, 0x0FFD) := by decide

/-- T3.8 -/
theorem test_ldB_out_of_bounds :
    observe ({ start 0xF033 [(0, 0x09)] with i := 0x0FFE }) (fun t => (faultAndPc t, t.mem.read 0xFFE))
      = some ((3, 0x200), 0) := by decide

/-- T3.10 -/
theorem test_ldMemVx :
    observe ({ start 0xF255 [(0, 0x11), (1, 0x22), (2, 0x33), (3, 0x44)] with i := 0x0300 }) (fun t => (t.mem.readBytes 0x300 4, t.i))
      = some ([0x11, 0x22, 0x33, 0x00], 0x0300) := by decide

/-- T3.12 -/
theorem test_ldMemVx_out_of_bounds :
    observe ({ start 0xF355 [(0, 0x01)] with i := 0x0FFD }) (fun t => (faultAndPc t, t.mem.readBytes 0xFFD 3))
      = some ((3, 0x200), [0, 0, 0]) := by decide

/-- T3.13 -/
theorem test_ldVxMem :
    observe ({ start 0xF265 [(3, 0x77)] with i := 0x0300, mem := (start 0xF265 []).mem.writeBytes 0x300 [2, 3, 4] }) (fun t => (t.reg 0, t.reg 1, t.reg 2, t.reg 3, t.i))
      = some (0x02, 0x03, 0x04, 0x77, 0x0300) := by decide

/-- T3.14 -/
theorem test_ldVxMem_out_of_bounds :
    observe ({ start 0xF165 [(0, 0x55)] with i := 0x0FFF }) (fun t => (faultAndPc t, t.reg 0))
      = some ((2, 0x200), 0x55) := by decide

/-! ### Display (T4) -/

/-- T4.1 -/
theorem test_cls_keeps_VF :
    observe ({ start 0x00E0 [(15, 0x05)] with disp := (Display.blank.setCell 0 0 true).setCell 31 63 true }) (fun t => (t.disp.cell 0 0, t.disp.cell 31 63, t.reg 15))
      = some (false, false, 0x05) := by decide

/-- T4.5 -/
theorem test_drw_wraps_on_both_axes :
    observe ({ start 0xD012 [(0, 0x3F), (1, 0x1F)] with i := 0x020A, mem := (start 0xD012 []).mem.writeBytes 0x20A [0xC0, 0x81] }) (fun t => (t.disp.cell 31 63, t.disp.cell 31 0, t.disp.cell 0 63, t.disp.cell 0 6, t.disp.cell 0 0, t.reg 15))
      = some (true, true, true, true, false, 0x00) := by decide

/-- T4.14 -/
theorem test_drw_collides :
    observe ({ start 0xD011 [] with i := 0x0300, disp := Display.blank.setCell 0 0 true, mem := (start 0xD011 []).mem.write 0x300 0xC0 }) (fun t => (t.disp.cell 0 0, t.disp.cell 0 1, t.reg 15))
      = some (false, true, 0x01) := by decide

/-! ### Keys and timers (T5) -/

/-- T5.1 -/
theorem test_skp_pressed :
    observe (start 0xE19E [(1, 0x07)] [7]) (fun t => t.pc)
      = some 0x204 := by decide

/-- T5.6 -/
theorem test_skp_no_key :
    observe (start 0xE09E [(0, 0x10)] [5]) (fun t => (faultAndPc t, t.keys[5]))
      = some ((6, 0x200), true) := by decide

/-- T5.3 -/
theorem test_sknp_not_pressed :
    observe (start 0xE1A1 [(1, 0x07)]) (fun t => t.pc)
      = some 0x204 := by decide

/-- T5.5 -/
theorem test_sknp_pressed :
    observe (start 0xE0A1 [(0, 0x0F)] [15]) (fun t => t.pc)
      = some 0x202 := by decide

/-- T5.7 -/
theorem test_ldVxDt :
    observe ({ start 0xF207 [] with dt := 1 }) (fun t => (t.reg 2, t.dt))
      = some (0x01, 0x00) := by decide

/-- T5.8 -/
theorem test_ldDtVx :
    observe (start 0xF015 [(0, 0x03)]) (fun t => t.dt)
      = some 0x02 := by decide

/-- T5.9 -/
theorem test_ldDtVx_zero :
    observe ({ start 0xF015 [] with dt := 9 }) (fun t => t.dt)
      = some 0x00 := by decide

/-- T5.12 -/
theorem test_ldStVx_tone :
    observe (start 0xF018 [(0, 0x01)]) (fun t => (t.st, t.port.tone))
      = some (0x00, true) := by decide

/-- T5.11 -/
theorem test_ldStVx_silences :
    observe ({ start 0xF018 [] with st := 5 }) (fun t => (t.st, t.port.tone))
      = some (0x00, false) := by decide

/-- T5.13 -/
theorem test_ldVxK_enters_the_wait :
    observe ({ start 0xF10A [] with dt := 3 }) (fun t => (t.waiting, t.keyreg, t.pc, t.dt, t.reg 1))
      = some (true, 1, 0x202, 0x02, 0x00) := by decide

/-! ### The tick (T5, T6) -/

/-- T5.14 -/
theorem test_wait_tick :
    observe ({ resetState [] with waiting := true, keyreg := 1, pc := 0x202, dt := 2 }) (fun t => (t.waiting, t.pc, t.dt))
      = some (true, 0x202, 0x02) := by decide

/-- T5.15 -/
theorem test_resume_tick :
    observe ({ resetState [3, 10] with waiting := true, keyreg := 1, pc := 0x202, dt := 2 }) (fun t => (t.reg 1, t.waiting, t.pc, t.dt, t.keyreg))
      = some (0x03, false, 0x202, 0x02, 1) := by decide

/-- T5.17 -/
theorem test_dead_tick :
    observe ({ resetState [5] with fault := some .storeBounds }) (fun t => (t.keys[5], t.pc, faultCode t.fault))
      = some (false, 0x200, 3) := by decide

/-- T6.3 -/
theorem test_fetch_bounds :
    observe ({ resetState [] with pc := 0x0FFF }) (fun t => faultAndPc t)
      = some (1, 0x0FFF) := by decide

/-- T6.4 -/
theorem test_odd_pc :
    observe ({ resetState [] with pc := 0x0201, mem := (resetState []).mem.writeBytes 0x201 [0x60, 0x77] }) (fun t => (t.reg 0, t.pc))
      = some (0x77, 0x0203) := by decide

/-- T6.8 -/
theorem test_unmatched_word :
    observe ({ start 0x5121 [(1, 0x01), (2, 0x01)] with dt := 3 }) (fun t => (t.pc, t.dt, t.port.diag))
      = some (0x202, 0x02, some { addr := 0x200, word := 0x5121 }) := by decide

/-! ### Host events (T7) -/

/-- T7.1 and R222: the font of Reset at 0x000..0x04F, glyph A at 0x32, and 0 above. -/
theorem test_reset_memory :
    (resetState []).mem.readBytes 0x32 5 = [0xF0, 0x90, 0xF0, 0x90, 0x90] ∧
      (resetState []).mem.readBytes 0x50 2 = [0, 0] := by decide

/-- T7.3 and T7.5: an image is copied to 0x200, and a second Load is refused. -/
theorem test_load_once :
    (applyLoad [0x12, 0x34] (resetState [])).mem.readBytes 0x200 3 = [0x12, 0x34, 0] ∧
      loadAllowed [] (resetState []) = true ∧
      loadAllowed [0x00] (applyLoad [0x12, 0x34] (resetState [])) = false := by decide

/-- R22, C4: a store into the font is an ordinary store, and the cell goes when the font's byte returns. -/
theorem test_font_is_writable :
    ((resetState []).mem.write 0 0x01).read 0 = 0x01 ∧
      ((resetState []).mem.write 0 0x01).write 0 0xF0 = (resetState []).mem := by decide

/-! ### Witnesses: for each statement with hypotheses, a state and operands that meet all of them -/

/-- A faulted state. -/
def faulted : State := { resetState [] with fault := some .loadBounds }

/-- A waiting state whose next snapshot has the keys `ks` pressed. -/
def waitingFor (ks : List Reg) : State := { resetState ks with waiting := true, keyreg := 1 }

theorem resetState_fetches (ks : List Reg) : Fetches (resetState ks) :=
  ⟨⟨rfl, rfl⟩, show (0x200 : Word).toNat + 1 ≤ 0xFFF by decide⟩

theorem start_fetches_shr : FetchesInstr (start 0x8106 [(1, 0x05)]) (.shr 1 0) :=
  ⟨⟨⟨rfl, rfl⟩, by decide⟩, by decide⟩

theorem witness_ResetGivesStateOfR220_fault_kept :
    ∃ (e : HostEvent) (s : State) (f : Fault), s.fault = some f ∧ ∀ font, e ≠ .reset font :=
  ⟨.load [], faulted, .loadBounds, rfl, fun _ h => nomatch h⟩

theorem witness_Load_allowed :
    ∃ (image : List Byte) (s : State), image.length ≤ 3584 ∧ s.port.loadOpen = true :=
  ⟨List.replicate 3584 0x12, resetState [], Nat.le_of_eq List.length_replicate, rfl⟩

theorem witness_Load_too_long : ∃ image : List Byte, 3584 < image.length :=
  ⟨List.replicate (3584 + 1) 0x12, by rw [List.length_replicate]; exact Nat.lt_succ_self _⟩

theorem witness_Load_second : ∃ s : State, s.port.loadOpen = false :=
  ⟨applyLoad [0x12] (resetState []), rfl⟩

theorem witness_Load_after_tick : ∃ s t : State, step s = .next t :=
  ⟨resetState [], step_answers_next _⟩

theorem witness_RowDecodesAs : ∃ w : Word, w &&& 0xF00F = 0x8004 := ⟨0x8FF4, by decide⟩

theorem witness_no_row : ∃ w : Word, ∀ row ∈ opcodeTable, w &&& row.mask ≠ row.pattern :=
  ⟨0xFFFF, by decide⟩

theorem witness_DecodeAndEncode :
    ∃ (w : Word) (i : Instr), i.wellFormed = true ∧ decodeWord w = some i :=
  ⟨0xDFFF, .drw 15 15 15, by decide, by decide⟩

theorem witness_StepRuns_no_fault : ∃ (s : State) (i : Instr) (u : State),
    FetchesInstr s i ∧ exec i (atDispatch s) = .next u ∧ u.fault = none :=
  ⟨_, _, _, start_fetches_shr, rfl, rfl⟩

theorem witness_StepRuns_fault : ∃ (s : State) (i : Instr) (u : State) (f : Fault),
    FetchesInstr s i ∧ exec i (atDispatch s) = .next u ∧ u.fault = some f :=
  ⟨start 0x00EE [], .ret, _, _, ⟨⟨⟨rfl, rfl⟩, by decide⟩, by decide⟩, exec_ret_empty rfl, rfl⟩

theorem witness_UnmatchedWordIsANoOp : ∃ s : State, Fetches s ∧ decodeWord (wordAtPc s) = none :=
  ⟨resetState [], resetState_fetches [], by decide⟩

theorem witness_TimerStep_decoded : ∃ s u : State, Fetches s ∧ (∃ i, decodeWord (wordAtPc s) = some i) ∧
    dispatch s.pc (wordAtPc s) (atDispatch s) = .next u ∧ u.fault = none :=
  ⟨start 0x8106 [(1, 0x05)], _, start_fetches_shr.1, ⟨_, start_fetches_shr.2⟩,
    by rw [dispatch, start_fetches_shr.2]; rfl, rfl⟩

theorem witness_TimerStep_unmatched : ∃ s u : State, Fetches s ∧ decodeWord (wordAtPc s) = none ∧
    dispatch s.pc (wordAtPc s) (atDispatch s) = .next u ∧ u.fault = none :=
  ⟨resetState [], _, resetState_fetches [], by decide, rfl, rfl⟩

theorem witness_TimerStep_not_executing : ∃ s t : State, ¬ Executes s ∧ step s = .next t := by
  obtain ⟨t, ht⟩ := step_answers_next faulted
  exact ⟨_, t, by unfold Executes; decide, ht⟩

theorem witness_FetchIsBigEndianAndBounded :
    (0xFFE : Word).toNat ≤ 0xFFE ∧ 0xFFE < (0xFFF : Word).toNat := by decide

theorem witness_FetchBeyondMemoryFaults : ∃ s : State, Executes s ∧ s.pc.toNat ≥ 0xFFF :=
  ⟨{ resetState [] with pc := 0x0FFF }, ⟨rfl, rfl⟩, by decide⟩

theorem witness_DeadTick : ∃ (s : State) (f : Fault), s.fault = some f := ⟨faulted, .loadBounds, rfl⟩

theorem witness_WaitTick : ∃ s : State, s.fault = none ∧ s.waiting = true ∧ NoKey (nextKeys s) :=
  ⟨waitingFor [], rfl, rfl, by unfold NoKey; decide⟩

theorem witness_ResumeTick_preferred : ∃ s : State, s.fault = none ∧ s.waiting = true ∧
    ¬ NoKey (nextKeys s) ∧ (nextKeys s)[(nextInput s.port).pick.val] = true :=
  ⟨waitingFor [0, 15], rfl, rfl, by unfold NoKey; decide, by decide⟩

theorem witness_ResumeTick_lowest : ∃ s : State, s.fault = none ∧ s.waiting = true ∧
    ¬ NoKey (nextKeys s) ∧ (nextKeys s)[(nextInput s.port).pick.val] = false :=
  ⟨waitingFor [3, 10], rfl, rfl, by unfold NoKey; decide, by decide⟩

theorem witness_WaitLasts : ∃ (n : Nat) (s : State), 0 < n ∧ s.fault = none ∧ s.waiting = true ∧
    n ≤ s.port.inputs.length ∧ ∀ inp ∈ s.port.inputs.take n, NoKey inp.keys :=
  ⟨1, waitingFor [], by decide, rfl, rfl, by decide, by unfold NoKey; decide⟩

theorem witness_TickTakes_lined_up : ∃ (s t : State) (inp : TickInput) (rest : List TickInput),
    s.port.inputs = inp :: rest ∧ s.fault = none ∧ step s = .next t := by
  obtain ⟨t, ht⟩ := step_answers_next (resetState [4])
  exact ⟨resetState [4], t, _, _, rfl, rfl, ht⟩

theorem witness_TickTakes_free : ∃ s t : State,
    s.port.inputs = [] ∧ s.fault = none ∧ step s = .next t := by
  obtain ⟨t, ht⟩ := step_answers_next State.reset
  exact ⟨State.reset, t, rfl, rfl, ht⟩

theorem witness_PlacedWord : ∃ (s : State) (nbits w : Nat) (i : Instr),
    Fetches s ∧ decodeTableWord nbits w = some i :=
  ⟨resetState [], 16, 0xF065, .ldVxMem 0, resetState_fetches [], by decide⟩

theorem reset_inv : (resetState []).Inv :=
  ⟨reset_mem_wf _, by decide, by decide, fun _ => rfl⟩

theorem witness_StepKeepsTheInvariant : ∃ s t : State, s.Inv ∧ step s = .next t := by
  obtain ⟨t, ht⟩ := step_answers_next (resetState [])
  exact ⟨_, t, reset_inv, ht⟩

theorem witness_StepKeepsFaultsExplained : ∃ s t : State,
    s.fault = some .fetchBounds ∧ FaultExplained s ∧ step s = .next t :=
  ⟨{ resetState [] with pc := 0x0FFF, fault := some .fetchBounds }, _, rfl,
    fun f h => by cases h; exact ⟨rfl, by decide⟩, step_of_fault rfl⟩

theorem witness_TickFaultsExactlyWhenDue :
    (∃ s : State, s.fault = none ∧ s.waiting = true) ∧
    (∃ s : State, s.fault = none ∧ s.waiting = false ∧ faultDue s = some .fetchBounds) ∧
    (∃ s : State, s.fault = none ∧ s.waiting = false ∧ faultDue s = some .stackUnderflow) ∧
    ∃ s : State, s.fault = none ∧ s.waiting = false ∧ faultDue s = none :=
  ⟨⟨waitingFor [], rfl, rfl⟩, ⟨{ resetState [] with pc := 0x0FFF }, rfl, rfl, by decide⟩,
    ⟨start 0x00EE [], rfl, rfl, by decide⟩, ⟨start 0x00E0 [], rfl, rfl, by decide⟩⟩

theorem witness_FaultsArePrecise_tick : ∃ (s t : State) (f : Fault),
    s.fault = none ∧ step s = .next t ∧ t.fault = some f :=
  ⟨start 0x00EE [], _, _, rfl,
    step_of_instr_fault (i := .ret) ⟨⟨⟨rfl, rfl⟩, by decide⟩, by decide⟩ rfl, rfl⟩

theorem witness_FaultsArePrecise_exec : ∃ (i : Instr) (s t : State) (f : Fault),
    s.fault = none ∧ exec i s = .next t ∧ t.fault = some f :=
  ⟨.ret, resetState [], _, _, rfl, exec_ret_empty rfl, rfl⟩

theorem witness_StateIsWritten : ∃ (i : Instr) (s t : State), exec i s = .next t ∧ t.i ≠ s.i :=
  ⟨.ldI 0x300, resetState [], _, rfl, by decide⟩

theorem witness_StateIsWritten_v : ∃ (i : Instr) (s t : State), exec i s = .next t ∧ t.v ≠ s.v :=
  ⟨.ldImm 15 0x05, resetState [], _, rfl, by decide⟩

theorem witness_RegistersAreWritten : ∃ (i : Instr) (s t : State) (r : Reg),
    exec i s = .next t ∧ t.reg r ≠ s.reg r :=
  ⟨.ldImm 15 0x05, resetState [], _, 15, rfl, by decide⟩

theorem witness_PcAfterEachInstruction : ∃ (s t : State) (i : Instr),
    FetchesInstr s i ∧ step s = .next t ∧ t.fault = none :=
  ⟨_, _, _, start_fetches_shr, step_of_instr_ok start_fetches_shr rfl rfl, rfl⟩

theorem witness_MemoryFormIsCanonical : ∃ (m : Memory) (a : Nat) (b : Byte),
    m.wf ∧ a < 4096 ∧ (m.write a b).cells ≠ [] :=
  ⟨(resetState []).mem, 4095, 0x01, reset_mem_wf _, by decide, by decide⟩

theorem witness_StoreIsSeen : ∃ (x : Reg) (s : State), 1 ≤ x.val ∧ s.i.toNat + x.val ≤ 0xFFF :=
  ⟨1, { resetState [] with i := 0x0FFE }, by decide, by decide⟩

theorem witness_Call_free_slot : ∃ s : State, s.sp.val < 16 := ⟨{ resetState [] with sp := 15 }, by decide⟩
theorem witness_Call_full : ∃ s : State, s.sp.val = 16 := ⟨{ resetState [] with sp := 16 }, by decide⟩
theorem witness_Ret_occupied : ∃ s : State, 0 < s.sp.val := ⟨{ resetState [] with sp := 1 }, by decide⟩
theorem witness_Ret_empty : ∃ s : State, s.sp.val = 0 := ⟨resetState [], rfl⟩

theorem witness_ReturnUndoesCall : ∃ (nnn : BitVec 12) (s t u : State),
    s.sp.val < 16 ∧ exec (.call nnn) s = .next t ∧ u.stack = t.stack ∧ u.sp = t.sp :=
  ⟨0x300, resetState [], _, _, by decide, exec_call_ok _ (by decide), rfl, rfl⟩

theorem witness_Add_boundaries : ∃ (x y : Reg) (s : State), x ≠ 15 ∧
    (s.reg x).toNat + (s.reg y).toNat = 256 :=
  ⟨0, 1, start 0x8014 [(0, 0xFF), (1, 0x01)], by decide, by decide⟩

theorem witness_Bcd : ∃ s : State, s.i.toNat + 2 ≤ 0xFFF :=
  ⟨{ resetState [] with i := 0x0FFD }, by decide⟩

theorem witness_Block : ∃ (x : Reg) (s : State), s.i.toNat + x.val ≤ 0xFFF :=
  ⟨15, { resetState [] with i := 0x0FF0 }, by decide⟩

theorem witness_DataBeyond_bcd : ∃ s : State, s.i.toNat + 2 > 0xFFF :=
  ⟨{ resetState [] with i := 0x0FFE }, by decide⟩

theorem witness_DataBeyond_block : ∃ (x : Reg) (s : State), s.i.toNat + x.val > 0xFFF :=
  ⟨1, { resetState [] with i := 0x0FFF }, by decide⟩

theorem witness_DataBeyond_draw : ∃ (n : Nat) (s : State), 1 ≤ n ∧ s.i.toNat + n - 1 > 0xFFF :=
  ⟨15, { resetState [] with i := 0x0FF2 }, by decide, by decide⟩

theorem witness_Draw_at_the_top : ∃ (x y : Reg) (n : Nat) (s : State), (Instr.drw x y n).wellFormed = true ∧
    (n = 0 ∨ s.i.toNat + n - 1 ≤ 0xFFF) :=
  ⟨0, 1, 15, { resetState [] with i := 0x0FF1 }, by decide, by decide⟩

theorem witness_Draw_empty_sprite : ∃ (x y : Reg) (n : Nat) (s : State),
    (Instr.drw x y n).wellFormed = true ∧ s.i.toNat > 0xFFF ∧ n = 0 :=
  ⟨0, 0, 0, { resetState [] with i := 0x1000 }, by decide, by decide, rfl⟩

/-- The sprite of one set bit at 0x300, drawn at (0, 0). -/
def dotState : State :=
  { resetState [] with i := 0x0300, mem := (resetState []).mem.write 0x300 0x80 }

theorem witness_Draw_hits : ∃ (x y : Reg) (n : Nat) (s : State) (r : Fin 32) (c : Fin 64),
    (Instr.drw x y n).wellFormed = true ∧ s.i.toNat + n - 1 ≤ 0xFFF ∧
    s.disp.cell r c = true ∧ SpriteCovers s x y n r c :=
  ⟨0, 1, 1, { dotState with disp := Display.blank.setCell 0 0 true }, 0, 0, by decide, by decide, by decide,
    0, 0, by decide, by decide, by decide, by decide, by decide⟩

theorem witness_DrawingTwice : ∃ (x y : Reg) (n : Nat) (s t u : State), (Instr.drw x y n).wellFormed = true ∧
    (n = 0 ∨ s.i.toNat + n - 1 ≤ 0xFFF) ∧ x ≠ 15 ∧ y ≠ 15 ∧
    exec (.drw x y n) s = .next t ∧ exec (.drw x y n) t = .next u := by
  obtain ⟨t, ht⟩ := exec_answers_next (.drw 0 1 1) dotState
  obtain ⟨u, hu⟩ := exec_answers_next (.drw 0 1 1) t
  exact ⟨0, 1, 1, dotState, t, u, by decide, by decide, by decide, by decide, ht, hu⟩

theorem witness_KeySkips_key : ∃ (x : Reg) (s : State) (k : Reg), (s.reg x).toNat = k.val :=
  ⟨0, start 0xE09E [(0, 0x0F)], 15, by decide⟩

theorem witness_KeySkips_no_key : ∃ (x : Reg) (s : State), (s.reg x).toNat > 15 :=
  ⟨0, start 0xE09E [(0, 0x10)], by decide⟩

theorem witness_timer_and_wait_fetches :
    FetchesInstr (start 0xF207 []) (.ldVxDt 2) ∧ FetchesInstr (start 0xF015 []) (.ldDtVx 0) ∧
    FetchesInstr (start 0xF018 []) (.ldStVx 0) ∧ FetchesInstr (start 0xF10A []) (.ldVxK 1) :=
  ⟨⟨⟨⟨rfl, rfl⟩, by decide⟩, by decide⟩, ⟨⟨⟨rfl, rfl⟩, by decide⟩, by decide⟩,
    ⟨⟨⟨rfl, rfl⟩, by decide⟩, by decide⟩, ⟨⟨⟨rfl, rfl⟩, by decide⟩, by decide⟩⟩

/-- A waiting core whose next snapshot has no key pressed and the one after it key 7. -/
def waitingThenPressed : State :=
  { waitingFor [] with
    port := { Port.reset with inputs := [[], [7], []].map fun ks => { keys := pressed ks, rnd := 0, pick := 0 } } }

theorem leaves_of_waiting {s : State} (h : s.waiting = true) : LeavesDt s ∧ LeavesSt s :=
  ⟨fun _ hi => Bool.noConfusion (h.symm.trans hi.1.1.2), fun _ hi => Bool.noConfusion (h.symm.trans hi.1.1.2)⟩

theorem leaves_of_unmatched {s : State} (h : decodeWord (wordAtPc s) = none) : LeavesDt s ∧ LeavesSt s :=
  ⟨fun _ hi => (nomatch h.symm.trans hi.2), fun _ hi => (nomatch h.symm.trans hi.2)⟩

theorem witness_TimersDecay_with_a_wait :
    HoldsFor LeavesDt 3 waitingThenPressed ∧ HoldsFor LeavesSt 3 waitingThenPressed := by
  have h1 := step_of_waiting (s := waitingThenPressed) rfl rfl
  have l1 := leaves_of_waiting (s := waitingThenPressed) rfl
  generalize ht : gateTick _ _ = t at h1
  have h2 := step_of_waiting (s := t) (by subst ht; decide) (by subst ht; decide)
  have l2 := leaves_of_waiting (s := t) (by subst ht; decide)
  generalize hu : gateTick _ _ = u at h2
  have l3 := leaves_of_unmatched (s := u) (by subst hu; subst ht; decide)
  rw [holdsFor_succ 2 h1, holdsFor_succ 1 h2, holdsFor_succ 2 h1, holdsFor_succ 1 h2]
  exact ⟨⟨l1.1, l2.1, l3.1, fun _ _ => trivial⟩, ⟨l1.2, l2.2, l3.2, fun _ _ => trivial⟩⟩

/-- R176, R89: of a wait tick, a resume tick and an executing tick only the last counts. -/
theorem test_completedTicks_wait_resume_executing : completedTicks 3 waitingThenPressed = 1 := by decide

theorem witness_TimersDecay_completes : HoldsFor (fun u => u.completes = true) 1 (resetState []) :=
  ⟨by decide, fun _ _ => trivial⟩

theorem witness_Parked : ∃ s : State, Parked s :=
  ⟨start 0x1200 [], 0x200, ⟨⟨⟨rfl, rfl⟩, by decide⟩, by decide⟩, by decide⟩

end Sys2Proof.Tests
end

section
/-! SUPPORT. The jump and the plain skips of 41_control_flow.md (rules R105 to R109). -/

namespace Sys2Proof.Machine

/-! ### Rows of the opcode table -/

/-- The words of each row of R66 decode as the row says, since no other row matches them (R63, R64). -/
theorem rowDecodesAs_of_mem {mask pattern : Word} {build : Word → Instr}
    (h : ⟨mask, pattern, build⟩ ∈ opcodeTable) : RowDecodesAs mask pattern build :=
  fun _ hw => decodeWord_of_row h hw

/-! ### What dispatch answers -/

theorem exec_jp (nnn : BitVec 12) (s : State) : exec (.jp nnn) s = .next (jumpTo (addressOf nnn) s) := rfl

theorem exec_seImm (x : Reg) (kk : Byte) (s : State) :
    exec (.seImm x kk) s = .next (skipIf (s.reg x == kk) s) := rfl

theorem exec_sneImm (x : Reg) (kk : Byte) (s : State) :
    exec (.sneImm x kk) s = .next (skipIf (s.reg x != kk) s) := rfl

theorem exec_seReg (x y : Reg) (s : State) :
    exec (.seReg x y) s = .next (skipIf (s.reg x == s.reg y) s) := rfl

theorem exec_sneReg (x y : Reg) (s : State) :
    exec (.sneReg x y) s = .next (skipIf (s.reg x != s.reg y) s) := rfl

/-! ### The skip by the numbers compared (R104) -/

/-- A skip on equal bytes. -/
theorem skipIf_beq (a b : Byte) (s : State) :
    skipIf (a == b) s = { s with pc := if a.toNat = b.toNat then s.pc + 2 else s.pc } := by
  simp only [skipIf, beq_iff_eq, BitVec.toNat_inj]

/-- A skip on different bytes. -/
theorem skipIf_bne (a b : Byte) (s : State) :
    skipIf (a != b) s = { s with pc := if a.toNat = b.toNat then s.pc else s.pc + 2 } := by
  simp only [skipIf, bne_iff_ne, ne_eq, ite_not, BitVec.toNat_inj]

/-! ### The statements -/

/-- Settles O32: row 3 of R66, and a jump writes PC alone, with nnn zero-extended. -/
theorem jumpSetsPc : Obligations.JumpSetsPc := by
  refine ⟨rowDecodesAs_of_mem (by simp [opcodeTable, opcodeRowsA]), fun nnn s => ?_⟩
  exact ⟨_, exec_jp nnn s, addressOf_toNat nnn, rfl⟩

/-- Settles O34: the four rows of R66, and each skip on its own comparison. -/
theorem skipsAddTwoToPc : Obligations.SkipsAddTwoToPc := by
  refine ⟨rowDecodesAs_of_mem ?seImm, rowDecodesAs_of_mem ?sneImm, rowDecodesAs_of_mem ?seReg,
    rowDecodesAs_of_mem ?sneReg, fun x y kk s => ⟨?_, ?_, ?_, ?_⟩⟩
  case seImm => simp [opcodeTable, opcodeRowsA]
  case sneImm => simp [opcodeTable, opcodeRowsA]
  case seReg => simp [opcodeTable, opcodeRowsA]
  case sneReg => simp [opcodeTable, opcodeRowsB]
  · rw [exec_seImm, skipIf_beq]
  · rw [exec_sneImm, skipIf_bne]
  · rw [exec_seReg, skipIf_beq]
  · rw [exec_sneReg, skipIf_bne]

end Sys2Proof.Machine
end

section
/-! SUPPORT. Register loads, the flagless addition and the bitwise rows of 42_load_alu.md (rules R120 to R125):
each is one write of one register. -/

namespace Sys2Proof.Machine

/-! ### What dispatch answers -/

theorem exec_ldImm (x : Reg) (kk : Byte) (s : State) : exec (.ldImm x kk) s = .next (s.setReg x kk) := rfl

theorem exec_addImm (x : Reg) (kk : Byte) (s : State) :
    exec (.addImm x kk) s = .next (s.setReg x (s.reg x + kk)) := rfl

theorem exec_ldReg (x y : Reg) (s : State) : exec (.ldReg x y) s = .next (s.setReg x (s.reg y)) := rfl

theorem exec_or (x y : Reg) (s : State) :
    exec (.or x y) s = .next (s.setReg x (s.reg x ||| s.reg y)) := rfl

theorem exec_and (x y : Reg) (s : State) :
    exec (.and x y) s = .next (s.setReg x (s.reg x &&& s.reg y)) := rfl

theorem exec_xor (x y : Reg) (s : State) :
    exec (.xor x y) s = .next (s.setReg x (s.reg x ^^^ s.reg y)) := rfl

/-! ### One register write -/

/-- A register write changes the register file and no other field. -/
theorem setReg_frame (s : State) (x : Reg) (b : Byte) :
    s.setReg x b = { s with v := (s.setReg x b).v } := rfl

/-- An instruction that answers one register write changes that register alone, VF being ordinary storage (R10). -/
theorem exec_writes_one_register {i : Instr} {s : State} {x : Reg} {b : Byte}
    (h : exec i s = .next (s.setReg x b)) :
    ∃ t, exec i s = .next t ∧ (∀ r : Reg, t.reg r = if r = x then b else s.reg r) ∧
      t = { s with v := t.v } :=
  ⟨_, h, fun r => reg_setReg s x r b, setReg_frame s x b⟩

/-! ### The statements -/

/-- Settles O38: row 8 of R66, and one write of kk into Vx. -/
theorem loadImmediateSetsVx : Obligations.LoadImmediateSetsVx := by
  refine ⟨rowDecodesAs_of_mem (by simp [opcodeTable, opcodeRowsA]), fun x kk s => ?_⟩
  exact exec_writes_one_register (exec_ldImm x kk s)

/-- Settles O39: row 9 of R66, and one write of the byte sum into Vx, which `BitVec` addition takes modulo 256. -/
theorem addImmediateWraps : Obligations.AddImmediateWraps := by
  refine ⟨rowDecodesAs_of_mem (by simp [opcodeTable, opcodeRowsA]), fun x kk s => ?_⟩
  refine ⟨_, exec_addImm x kk s, ?sum, fun r hr => reg_setReg_other s _ hr, setReg_frame s x _⟩
  case sum => rw [reg_setReg_same, BitVec.toNat_add]

/-- Settles O40: rows 10 to 13 of R66, and one write of the copy or of the bitwise result into Vx. -/
theorem copyAndLogicWriteVxAlone : Obligations.CopyAndLogicWriteVxAlone := by
  refine ⟨rowDecodesAs_of_mem ?ldReg, rowDecodesAs_of_mem ?or, rowDecodesAs_of_mem ?and,
    rowDecodesAs_of_mem ?xor, fun x y s => ⟨?_, ?_, ?_, ?_⟩⟩
  case ldReg => simp [opcodeTable, opcodeRowsB]
  case or => simp [opcodeTable, opcodeRowsB]
  case and => simp [opcodeTable, opcodeRowsB]
  case xor => simp [opcodeTable, opcodeRowsB]
  · exact exec_writes_one_register (exec_ldReg x y s)
  · exact exec_writes_one_register (exec_or x y s)
  · exact exec_writes_one_register (exec_and x y s)
  · exact exec_writes_one_register (exec_xor x y s)

end Sys2Proof.Machine
end

section
/-! SUPPORT. The index register's load of 43_index_memory.md (rule R140). -/

namespace Sys2Proof.Machine

/-! ### What dispatch answers -/

theorem exec_ldI (nnn : BitVec 12) (s : State) : exec (.ldI nnn) s = .next { s with i := addressOf nnn } := rfl

/-! ### The statement -/

/-- Settles O45: row 20 of R66, and a load of I writes I alone, with nnn zero-extended. -/
theorem loadIndexSetsI : Obligations.LoadIndexSetsI := by
  refine ⟨rowDecodesAs_of_mem (by simp [opcodeTable, opcodeRowsC]), fun nnn s => ?_⟩
  exact ⟨_, exec_ldI nnn s, addressOf_toNat nnn, rfl⟩

end Sys2Proof.Machine
end

section
/-! SUPPORT. The clearing of the display of 44_display.md (rule R160). -/

namespace Sys2Proof.Machine

/-! ### What dispatch answers -/

theorem exec_cls (s : State) : exec .cls s = .next { s with disp := Display.blank } := rfl

/-! ### The statement -/

/-- Settles O52: row 1 of R66, and CLS replaces the display alone, by the blank one. -/
theorem clearTurnsEveryCellOff : Obligations.ClearTurnsEveryCellOff := by
  refine ⟨rowDecodesAs_of_mem (by simp [opcodeTable, opcodeRowsA]), fun s => ?_⟩
  exact ⟨_, exec_cls s, blank_cell, rfl⟩

end Sys2Proof.Machine
end

section
/-! SUPPORT. The read of the delay timer of 45_input_timers.md (rule R172), which the timer step of its own tick
follows (rule R87). -/

namespace Sys2Proof.Machine

/-! ### What dispatch answers -/

theorem exec_ldVxDt (x : Reg) (s : State) : exec (.ldVxDt x) s = .next (s.setReg x s.dt) := rfl

/-! ### Registers after the timer step -/

@[simp] theorem timerStep_reg (s : State) (r : Reg) : (timerStep s).reg r = s.reg r :=
  reg_of_v (timerStep_v s) r

/-! ### The tick of Fx07 -/

/-- The tick of Fx07: the write of the DT that the tick found, and only then the timer step (R87, R172). -/
theorem step_of_ldVxDt {s : State} {x : Reg} (h : FetchesInstr s (.ldVxDt x)) :
    step s = .next (timerStep ((atDispatch s).setReg x s.dt)) := by
  have hfault : s.fault = none := h.1.1.1
  exact step_of_instr_ok h (exec_ldVxDt x (atDispatch s)) hfault

/-! ### The statement -/

/-- Settles O56: row 26 of R66, one write of DT into Vx, and the timer step that counts DT down after it. -/
theorem readTimerBeforeItsDecrement : Obligations.ReadTimerBeforeItsDecrement := by
  refine ⟨rowDecodesAs_of_mem (by simp [opcodeTable, opcodeRowsC]), fun x s => ?exec, fun x s h => ?step⟩
  case exec => exact exec_writes_one_register (exec_ldVxDt x s)
  case step =>
    refine ⟨_, step_of_ldVxDt h, ?reg, ?dt⟩
    case reg => rw [timerStep_reg, reg_setReg_same]
    case dt => rw [timerStep_dt, setReg_dt, atDispatch_dt, countDown_toNat]

end Sys2Proof.Machine
end

section
/-! SUPPORT. Reset and the recorded fault of 70_reset_and_hazards.md (rule R220): what every field is after
Reset, and what each other host event does to the fault register. -/

namespace Sys2Proof.Machine

/-! ### Memory after Reset (R220, R222) -/

theorem unlisted_of_font (m : Memory) {a : Nat} (h : a < 80) : m.unlisted a = m.font[a] := dif_pos h

theorem unlisted_above_font (m : Memory) {a : Nat} (h : 80 ≤ a) : m.unlisted a = 0 :=
  dif_neg (Nat.not_lt.mpr h)

/-- Reset lists no cell. -/
theorem resetWith_read (font : Vector Byte 80) (a : Nat) :
    (State.resetWith font).mem.read a = (State.resetWith font).mem.unlisted a := rfl

/-- The font table fills 0x000 to 0x04F. -/
theorem resetWith_read_font (font : Vector Byte 80) {a : Nat} (h : a < 80) :
    (State.resetWith font).mem.read a = font[a] := by
  rw [resetWith_read, unlisted_of_font _ h]
  rfl

/-- Above the font every byte is zero. -/
theorem resetWith_read_above_font (font : Vector Byte 80) {a : Nat} (h : 80 ≤ a) :
    (State.resetWith font).mem.read a = 0 := by
  rw [resetWith_read, unlisted_above_font _ h]

/-! ### The arrays after Reset (R220) -/

theorem resetWith_reg (font : Vector Byte 80) (r : Reg) : (State.resetWith font).reg r = 0 :=
  Vector.getElem_replicate r.isLt

theorem resetWith_stack (font : Vector Byte 80) (j : Fin 16) : (State.resetWith font).stack[j.val] = 0 :=
  Vector.getElem_replicate j.isLt

theorem resetWith_noKey (font : Vector Byte 80) : NoKey (State.resetWith font).keys :=
  fun k => Vector.getElem_replicate k.isLt

/-! ### The reset state -/

theorem resetWith_isResetState (font : Vector Byte 80) : IsResetState font (State.resetWith font) := by
  refine ⟨fun a h => resetWith_read_font font h, fun a h _ => resetWith_read_above_font font h,
    resetWith_reg font, ?i, ?pc, resetWith_stack font, ?sp, ?dt, ?st, blank_cell, resetWith_noKey font,
    ?waiting, ?keyreg, ?fault⟩ <;> rfl

/-- The ports are no part of the state of R220. -/
theorem IsResetState.with_port {font : Vector Byte 80} {t : State} (h : IsResetState font t) (p : Port) :
    IsResetState font { t with port := p } := h

/-- Reset gives the state of R220 whatever the prior state was, its ports being all it keeps. -/
theorem applyReset_isResetState (font : Vector Byte 80) (s : State) : IsResetState font (applyReset font s) :=
  (resetWith_isResetState font).with_port _

/-! ### What the host events answer (R205) -/

theorem hostEvent_reset (font : Vector Byte 80) (s : State) :
    hostEvent (.reset font) s = .next (applyReset font s, .done) := rfl

theorem hostEvent_load_allowed {image : List Byte} {s : State} (h : loadAllowed image s = true) :
    hostEvent (.load image) s = .next (applyLoad image s, .done) := by
  rw [hostEvent, if_pos h]

theorem hostEvent_load_refused {image : List Byte} {s : State} (h : ¬ loadAllowed image s = true) :
    hostEvent (.load image) s = .next (s, .refused) := by
  rw [hostEvent, if_neg h]

theorem hostEvent_tick {inp : TickInput} {s t : State} (h : step (offerInput inp s) = .next t) :
    hostEvent (.tick inp) s = .next (t, .done) := by
  rw [hostEvent, h]

/-- The Tick of a faulted core is dead: it moves the ports alone (R80). -/
theorem hostEvent_tick_of_fault {s : State} {f : Fault} (h : s.fault = some f) (inp : TickInput) :
    hostEvent (.tick inp) s = .next (openTick (offerInput inp s), .done) := by
  have hoffered : (offerInput inp s).fault = some f := (offerInput_fault s inp).trans h
  exact hostEvent_tick (step_of_fault hoffered)

theorem hostEvent_debugReadReg (x : Reg) (s : State) :
    hostEvent (.debugReadReg x) s = .next (s, .byte (s.reg x)) := rfl

theorem hostEvent_debugReadMem (a : Fin 4096) (s : State) :
    hostEvent (.debugReadMem a) s = .next (s, .byte (s.mem.read a.val)) := rfl

theorem hostEvent_debugWriteReg (x : Reg) (b : Byte) (s : State) :
    hostEvent (.debugWriteReg x b) s = .next (s.setReg x b, .done) := rfl

theorem hostEvent_debugWriteMem (a : Fin 4096) (b : Byte) (s : State) :
    hostEvent (.debugWriteMem a b) s = .next ({ s with mem := s.mem.write a.val b }, .done) := rfl

/-! ### A recorded fault stays (R192) -/

/-- Reset aside, no host event clears or replaces a recorded fault. -/
theorem hostEvent_keeps_fault {e : HostEvent} {s : State} {f : Fault} (h : s.fault = some f)
    (he : ∀ font, e ≠ .reset font) : ∃ t reply, hostEvent e s = .next (t, reply) ∧ t.fault = some f := by
  cases e with
  | reset font => exact absurd rfl (he font)
  | load image =>
    by_cases hload : loadAllowed image s = true
    · exact ⟨_, _, hostEvent_load_allowed hload, (applyLoad_fault s image).trans h⟩
    · exact ⟨_, _, hostEvent_load_refused hload, h⟩
  | tick inp =>
    refine ⟨_, _, hostEvent_tick_of_fault h inp, ?_⟩
    rw [openTick_fault, offerInput_fault, h]
  | debugReadReg x => exact ⟨_, _, hostEvent_debugReadReg x s, h⟩
  | debugReadMem a => exact ⟨_, _, hostEvent_debugReadMem a s, h⟩
  | debugWriteReg x b => exact ⟨_, _, hostEvent_debugWriteReg x b s, (setReg_fault s x b).trans h⟩
  | debugWriteMem a b => exact ⟨_, _, hostEvent_debugWriteMem a b s, h⟩

/-! ### The statement -/

/-- Settles O1: the fields of the reset state one by one, Reset answering it from every state, and a recorded
fault kept by each event that is not Reset. -/
theorem resetGivesStateOfR220 : Obligations.ResetGivesStateOfR220 := by
  refine ⟨resetWith_isResetState, resetWith_isResetState Config.font, fun font s => ?reset,
    fun _ _ _ h he => hostEvent_keeps_fault h he⟩
  case reset => exact ⟨_, hostEvent_reset font s, applyReset_isResetState font s⟩

end Sys2Proof.Machine
end

section
/-! SUPPORT. Encoding, the whole table at once (30_encoding.md): every row rebuilds its words from their fields,
and the words of no row as numbers. -/

namespace Sys2Proof

/-! ### A row's words are the words of its instructions (R61, R66) -/

/-- The row's instruction is well-formed and its word is the one the row took its fields from. -/
def RowEncodes (row : OpcodeRow) : Prop :=
  ∀ w : Word, w &&& row.mask = row.pattern → (row.build w).wellFormed = true ∧ encode (row.build w) = w

theorem rowEncodes_fixed {pattern : Word} {i : Instr} (hi : i.wellFormed = true) (he : encode i = pattern) :
    RowEncodes ⟨0xFFFF, pattern, fun _ => i⟩ := by
  intro w hw
  have hall : w &&& 0xFFFF = w := BitVec.and_allOnes
  exact ⟨hi, he.trans (hw.symm.trans hall)⟩

section
variable {c : BitVec 4} {pattern : Word} {build : Word → Instr}

theorem rowEncodes_nnn (hp : pattern = c ++ 0#4 ++ 0#4 ++ 0#4)
    (hb : ∀ w, (build w).wellFormed = true ∧ encode (build w) = wordNNN c (fieldNNN w)) :
    RowEncodes ⟨0xF000, pattern, build⟩ := by
  intro w hw
  have hc : w.extractLsb' 12 4 = c := and_F000_eq (hw.trans hp)
  refine ⟨(hb w).1, (hb w).2.trans ?_⟩
  rw [← hc, wordNNN_fields]

theorem rowEncodes_xkk (hp : pattern = c ++ 0#4 ++ 0#4 ++ 0#4)
    (hb : ∀ w, (build w).wellFormed = true ∧ encode (build w) = wordXKK c (fieldX w) (fieldKK w)) :
    RowEncodes ⟨0xF000, pattern, build⟩ := by
  intro w hw
  have hc : w.extractLsb' 12 4 = c := and_F000_eq (hw.trans hp)
  refine ⟨(hb w).1, (hb w).2.trans ?_⟩
  rw [← hc, wordXKK_fields]

theorem rowEncodes_xyn (hp : pattern = c ++ 0#4 ++ 0#4 ++ 0#4)
    (hb : ∀ w, (build w).wellFormed = true ∧
      encode (build w) = wordXYC c (fieldX w) (fieldY w) (w.extractLsb' 0 4)) :
    RowEncodes ⟨0xF000, pattern, build⟩ := by
  intro w hw
  have hc : w.extractLsb' 12 4 = c := and_F000_eq (hw.trans hp)
  refine ⟨(hb w).1, (hb w).2.trans ?_⟩
  rw [← hc, wordXYC_fields]

theorem rowEncodes_xyc {c' : BitVec 4} (hp : pattern = c ++ 0#4 ++ 0#4 ++ c')
    (hb : ∀ w, (build w).wellFormed = true ∧ encode (build w) = wordXYC c (fieldX w) (fieldY w) c') :
    RowEncodes ⟨0xF00F, pattern, build⟩ := by
  intro w hw
  obtain ⟨hc, hc'⟩ := and_F00F_eq (hw.trans hp)
  refine ⟨(hb w).1, (hb w).2.trans ?_⟩
  rw [← hc, ← hc', wordXYC_fields]

theorem rowEncodes_xcc {cc : Byte}
    (hp : pattern = c ++ 0#4 ++ cc.extractLsb' 4 4 ++ cc.extractLsb' 0 4)
    (hb : ∀ w, (build w).wellFormed = true ∧ encode (build w) = wordXCC c (fieldX w) cc) :
    RowEncodes ⟨0xF0FF, pattern, build⟩ := by
  intro w hw
  obtain ⟨hc, hcc⟩ := and_F0FF_eq (hw.trans hp)
  refine ⟨(hb w).1, (hb w).2.trans ?_⟩
  rw [← hc, ← hcc, wordXCC_fields]

end

/-- A row count read from a word fits its field, and is encoded as that field. -/
theorem drw_of_fields (w : Word) :
    (Instr.drw (fieldX w) (fieldY w) (fieldN w)).wellFormed = true ∧
      encode (.drw (fieldX w) (fieldY w) (fieldN w)) =
        wordXYC 0xD (fieldX w) (fieldY w) (w.extractLsb' 0 4) := by
  have hn : fieldN w < 16 := (w.extractLsb' 0 4).isLt
  refine ⟨?_, ?_⟩
  · simp only [Instr.wellFormed, Instr.rowCountFits, decide_eq_true_eq]
    omega
  · simp only [encode, fieldN, BitVec.ofNat_toNat, BitVec.setWidth_eq]

theorem opcodeRowsA_encode : ∀ row ∈ opcodeRowsA, RowEncodes row := by
  simp only [opcodeRowsA, List.forall_mem_cons, List.not_mem_nil, false_imp_iff, implies_true, and_true]
  refine ⟨?cls, ?ret, ?jp, ?call, ?seImm, ?sneImm, ?seReg, ?ldImm, ?addImm⟩
  case cls | ret => exact rowEncodes_fixed rfl rfl
  case jp | call => exact rowEncodes_nnn (by decide) fun _ => ⟨rfl, rfl⟩
  case seReg => exact rowEncodes_xyc (by decide) fun _ => ⟨rfl, rfl⟩
  case seImm | sneImm | ldImm | addImm => exact rowEncodes_xkk (by decide) fun _ => ⟨rfl, rfl⟩

theorem opcodeRowsB_encode : ∀ row ∈ opcodeRowsB, RowEncodes row := by
  simp only [opcodeRowsB, List.forall_mem_cons, List.not_mem_nil, false_imp_iff, implies_true, and_true]
  and_intros
  all_goals exact rowEncodes_xyc (by decide) fun _ => ⟨rfl, rfl⟩

theorem opcodeRowsC_encode : ∀ row ∈ opcodeRowsC, RowEncodes row := by
  simp only [opcodeRowsC, List.forall_mem_cons, List.not_mem_nil, false_imp_iff, implies_true, and_true]
  refine ⟨?ldI, ?jpV0, ?rnd, ?drw, ?fixedBytes⟩
  case ldI | jpV0 => exact rowEncodes_nnn (by decide) fun _ => ⟨rfl, rfl⟩
  case rnd => exact rowEncodes_xkk (by decide) fun _ => ⟨rfl, rfl⟩
  case drw => exact rowEncodes_xyn (by decide) drw_of_fields
  case fixedBytes =>
    and_intros
    all_goals exact rowEncodes_xcc (by decide) fun _ => ⟨rfl, rfl⟩

theorem opcodeTable_encode : ∀ row ∈ opcodeTable, RowEncodes row := by
  simp only [opcodeTable, List.forall_mem_append]
  exact ⟨⟨opcodeRowsA_encode, opcodeRowsB_encode⟩, opcodeRowsC_encode⟩

/-! ### The two directions of the inverse -/

/-- A well-formed instruction is what its word decodes to. -/
theorem decodeWord_encode {i : Instr} (h : i.wellFormed = true) : decodeWord (encode i) = some i := by
  revert h
  show Laws.RoundTrip.Statement i
  cases i with
  | cls => exact Laws.RoundTrip.cls
  | ret => exact Laws.RoundTrip.ret
  | jp nnn => exact Laws.RoundTrip.jp nnn
  | call nnn => exact Laws.RoundTrip.call nnn
  | seImm x kk => exact Laws.RoundTrip.seImm x kk
  | sneImm x kk => exact Laws.RoundTrip.sneImm x kk
  | seReg x y => exact Laws.RoundTrip.seReg x y
  | ldImm x kk => exact Laws.RoundTrip.ldImm x kk
  | addImm x kk => exact Laws.RoundTrip.addImm x kk
  | ldReg x y => exact Laws.RoundTrip.ldReg x y
  | or x y => exact Laws.RoundTrip.or x y
  | and x y => exact Laws.RoundTrip.and x y
  | xor x y => exact Laws.RoundTrip.xor x y
  | addReg x y => exact Laws.RoundTrip.addReg x y
  | sub x y => exact Laws.RoundTrip.sub x y
  | shr x y => exact Laws.RoundTrip.shr x y
  | subn x y => exact Laws.RoundTrip.subn x y
  | shl x y => exact Laws.RoundTrip.shl x y
  | sneReg x y => exact Laws.RoundTrip.sneReg x y
  | ldI nnn => exact Laws.RoundTrip.ldI nnn
  | jpV0 nnn => exact Laws.RoundTrip.jpV0 nnn
  | rnd x kk => exact Laws.RoundTrip.rnd x kk
  | drw x y n => exact Laws.RoundTrip.drw x y n
  | skp x => exact Laws.RoundTrip.skp x
  | sknp x => exact Laws.RoundTrip.sknp x
  | ldVxDt x => exact Laws.RoundTrip.ldVxDt x
  | ldVxK x => exact Laws.RoundTrip.ldVxK x
  | ldDtVx x => exact Laws.RoundTrip.ldDtVx x
  | ldStVx x => exact Laws.RoundTrip.ldStVx x
  | addI x => exact Laws.RoundTrip.addI x
  | ldF x => exact Laws.RoundTrip.ldF x
  | ldB x => exact Laws.RoundTrip.ldB x
  | ldMemVx x => exact Laws.RoundTrip.ldMemVx x
  | ldVxMem x => exact Laws.RoundTrip.ldVxMem x

/-- A word that decodes is the word of the well-formed instruction it decodes to. -/
theorem encode_of_decodeWord {w : Word} {i : Instr} (h : decodeWord w = some i) :
    i.wellFormed = true ∧ encode i = w := by
  obtain ⟨row, hrow, hw, rfl⟩ := row_of_decodeWord h
  exact opcodeTable_encode row hrow w hw

/-- Settles O6: one way instruction by instruction, the other way row by row of the opcode table. -/
theorem decodeAndEncodeAreInverse : Obligations.DecodeAndEncodeAreInverse :=
  ⟨fun _ h => decodeWord_encode h, fun _ _ h => encode_of_decodeWord h⟩

/-! ### Rows and their words (R63, R66) -/

/-- Settles O4: each row is a row of the table, whose words decode by it alone, and a word of no row decodes to
nothing. -/
theorem everyRowDecodesByItsMask : Obligations.EveryRowDecodesByItsMask := by
  have rows : ∀ row ∈ opcodeTable, Machine.RowDecodesAs row.mask row.pattern row.build :=
    fun _ h => Machine.rowDecodesAs_of_mem h
  have unmatched : ∀ w : Word, (∀ row ∈ opcodeTable, w &&& row.mask ≠ row.pattern) → decodeWord w = none :=
    fun _ h => decodeWord_eq_none.2 h
  unfold Obligations.EveryRowDecodesByItsMask
  generalize hU : (∀ w : Word, _ → decodeWord w = none) = U
  have both := And.intro rows (hU.mp unmatched)
  simpa only [opcodeTable, opcodeRowsA, opcodeRowsB, opcodeRowsC, List.forall_mem_append,
    List.forall_mem_cons, List.not_mem_nil, false_imp_iff, implies_true, and_true, and_assoc] using both

end Sys2Proof
end

section
/-! SUPPORT. The words of no row, as numbers (30_encoding.md section 4). -/

namespace Sys2Proof

/-! ### A row's fixed bits as numbers -/

/-- A word is its first nibble and its low twelve bits. -/
theorem word_eq_iff {w p : Word} :
    w = p ↔ w.toNat / 4096 = p.toNat / 4096 ∧ w.toNat % 4096 = p.toNat % 4096 := by
  rw [← BitVec.toNat_inj]
  omega

theorem and_FFFF_eq_iff {w p : Word} : w &&& 0xFFFF = p ↔ w = p := by
  rw [show w &&& 0xFFFF = w from BitVec.and_allOnes]

theorem firstNibble_toNat (w : Word) : (w.extractLsb' 12 4).toNat = w.toNat / 4096 := by
  have := w.isLt
  simp only [BitVec.extractLsb'_toNat, Nat.shiftRight_eq_div_pow]
  omega

theorem lastNibble_toNat (w : Word) : (w.extractLsb' 0 4).toNat = w.toNat % 16 := by
  simp [BitVec.extractLsb'_toNat]

theorem lowByte_toNat (w : Word) : (w.extractLsb' 0 8).toNat = w.toNat % 256 := by
  simp [BitVec.extractLsb'_toNat]

section
variable {w p : Word}

theorem and_F000_eq_iff (hp : p &&& 0xF000 = p) : w &&& 0xF000 = p ↔ w.toNat / 4096 = p.toNat / 4096 := by
  have hpat : p.extractLsb' 12 4 ++ 0#4 ++ 0#4 ++ 0#4 = p := by rw [← nibbles_and_F000, word_eq_nibbles, hp]
  rw [← firstNibble_toNat, ← firstNibble_toNat, BitVec.toNat_inj]
  refine ⟨fun h => and_F000_eq (h.trans hpat.symm), fun h => Eq.trans ?_ hpat⟩
  rw [← h, ← nibbles_and_F000, word_eq_nibbles]

theorem and_F00F_eq_iff (hp : p &&& 0xF00F = p) :
    w &&& 0xF00F = p ↔ w.toNat / 4096 = p.toNat / 4096 ∧ w.toNat % 16 = p.toNat % 16 := by
  have hpat : p.extractLsb' 12 4 ++ 0#4 ++ 0#4 ++ p.extractLsb' 0 4 = p := by
    rw [← nibbles_and_F00F, word_eq_nibbles, hp]
  rw [← firstNibble_toNat, ← firstNibble_toNat, ← lastNibble_toNat, ← lastNibble_toNat, BitVec.toNat_inj,
    BitVec.toNat_inj]
  refine ⟨fun h => and_F00F_eq (h.trans hpat.symm), fun ⟨h, h'⟩ => Eq.trans ?_ hpat⟩
  rw [← h, ← h', ← nibbles_and_F00F, word_eq_nibbles]

theorem and_F0FF_eq_iff (hp : p &&& 0xF0FF = p) :
    w &&& 0xF0FF = p ↔ w.toNat / 4096 = p.toNat / 4096 ∧ w.toNat % 256 = p.toNat % 256 := by
  have hpat := wordXCC_and (p.extractLsb' 12 4) (fieldX p) (p.extractLsb' 0 8)
  rw [wordXCC_fields, hp] at hpat
  rw [← firstNibble_toNat, ← firstNibble_toNat, ← lowByte_toNat, ← lowByte_toNat, BitVec.toNat_inj,
    BitVec.toNat_inj]
  refine ⟨fun h => and_F0FF_eq (h.trans hpat), fun ⟨h, h'⟩ => Eq.trans ?_ hpat.symm⟩
  rw [← h, ← h', ← wordXCC_and _ (fieldX w), wordXCC_fields]

end

/-! ### The statement -/

/-- Settles O5: no row matches, said in numbers row by row, and then first nibble by first nibble. -/
theorem unmatchedWordsAreExactlyThese : Obligations.UnmatchedWordsAreExactlyThese := by
  intro w
  have hfirst : w.toNat / 4096 < 16 := by
    have := w.isLt
    omega
  have hlast : w.toNat % 16 < 16 := Nat.mod_lt _ (by decide)
  rw [decodeWord_eq_none]
  simp (disch := decide) only [opcodeTable, opcodeRowsA, opcodeRowsB, opcodeRowsC, List.forall_mem_append,
    List.mem_cons, forall_eq_or_imp, forall_eq, List.not_mem_nil, or_false, ne_eq, and_FFFF_eq_iff,
    and_F000_eq_iff, and_F00F_eq_iff, and_F0FF_eq_iff, BitVec.reduceToNat, Nat.reduceDiv, Nat.reduceMod]
  simp only [word_eq_iff, BitVec.reduceToNat, Nat.reduceDiv, Nat.reduceMod]
  generalize w.toNat / 4096 = first at hfirst ⊢
  generalize w.toNat % 16 = last at hlast ⊢
  -- After `simp` the first nibble 8 is left: its last nibbles are a range in the list, nine values in the table.
  interval_cases first <;> simp
  · omega

end Sys2Proof
end

section
/-! SUPPORT. Bytes and words (20_memory.md section 3), and words written out from 30_encoding.md section 3. -/

namespace Sys2Proof

/-! ### Bytes -/

theorem wordOfBytes_eq_ofNat (high low : Byte) :
    wordOfBytes high low = BitVec.ofNat 16 (high.toNat * 256 + low.toNat) := by
  rw [← wordOfBytes_toNat, BitVec.ofNat_toNat, BitVec.setWidth_eq]

section
variable {high low : Byte} {i : Instr} (rest : List Byte)

theorem decodeBytes_of_some (h : decodeWord (wordOfBytes high low) = some i) :
    decodeBytes (high :: low :: rest) = .instr i rest := by
  simp only [decodeBytes, h]

theorem decodeBytes_of_none (h : decodeWord (wordOfBytes high low) = none) :
    decodeBytes (high :: low :: rest) = .unmatched (wordOfBytes high low) rest := by
  simp only [decodeBytes, h]

/-- The bytes of a word decode as the word does. -/
theorem decodeBytes_bytesOfWord {w : Word} (h : decodeWord w = some i) :
    decodeBytes (bytesOfWord w ++ rest) = .instr i rest := by
  rw [← wordOfBytes_of_word w] at h
  exact decodeBytes_of_some rest h

end

theorem tableWord_toNat (w : Word) : tableWord 16 w.toNat = w := by
  rw [tableWord, Nat.mod_eq_of_lt w.isLt, BitVec.ofNat_toNat, BitVec.setWidth_eq]

/-- The instruction of a table word is the one its word decodes to. -/
theorem decodeTableWord_eq (nbits w : Nat) : decodeTableWord nbits w = decodeWord (tableWord nbits w) := by
  have hw : decodeWord (wordOfBytes _ _) = decodeWord (tableWord nbits w) :=
    congrArg decodeWord (wordOfBytes_of_word _)
  cases h : decodeWord (tableWord nbits w) with
  | some i => simp only [decodeTableWord, bytesOfWord, decodeBytes_of_some [] (hw.trans h)]
  | none => simp only [decodeTableWord, bytesOfWord, decodeBytes_of_none [] (hw.trans h)]

/-! ### The statements -/

/-- Settles O8: the two bytes are the word's high and low byte, and a well-formed instruction is what its word
decodes to. -/
theorem bytesDecodeBigEndian : Obligations.BytesDecodeBigEndian := by
  refine ⟨fun high low rest => ?pair, fun w => ?table, fun i rest h => ?roundTrip⟩
  case pair =>
    rw [← wordOfBytes_eq_ofNat]
    cases h : decodeWord (wordOfBytes high low) with
    | some i => exact decodeBytes_of_some rest h
    | none => exact decodeBytes_of_none rest h
  case table => rw [decodeTableWord_eq, tableWord_toNat]
  case roundTrip => exact decodeBytes_bytesOfWord rest (decodeWord_encode h)

/-- Settles O7: the table's search, evaluated on each of the fifteen words. -/
theorem sampleWordsDecode : Obligations.SampleWordsDecode := by
  unfold Obligations.SampleWordsDecode
  decide

end Sys2Proof
end

section
/-! SUPPORT. What an instruction can do, said once for each kind of effect (10_state.md section 1, its "written by"
column): the inversion lemma `effect_of_exec`, from which the frames, PC and the invariants follow. -/

namespace Sys2Proof.Machine

/-! ### Destinations and kinds of instruction -/

/-- The instruction may write V[r]: as the flag of its row, as its destination `x`, or in the block of Fx65. -/
def Targets (i : Instr) (r : Reg) : Prop :=
  (r = Reg.VF ∧ ((∃ x y, i = .addReg x y ∨ i = .sub x y ∨ i = .subn x y ∨ i = .shr x y ∨ i = .shl x y)
    ∨ ∃ x y n, i = .drw x y n)) ∨
  (∃ kk, i = .ldImm r kk ∨ i = .addImm r kk ∨ i = .rnd r kk) ∨
  (∃ y, i = .ldReg r y ∨ i = .or r y ∨ i = .and r y ∨ i = .xor r y ∨ i = .addReg r y ∨ i = .sub r y ∨
    i = .subn r y ∨ i = .shr r y ∨ i = .shl r y) ∨
  i = .ldVxDt r ∨ (∃ x : Reg, r ≤ x ∧ i = .ldVxMem x)

/-- The instruction writes V registers and nothing else. -/
def WritesRegsOnly (i : Instr) : Prop :=
  (∃ x kk, i = .ldImm x kk ∨ i = .addImm x kk ∨ i = .rnd x kk) ∨
  (∃ x y, i = .ldReg x y ∨ i = .or x y ∨ i = .and x y ∨ i = .xor x y ∨ i = .addReg x y ∨ i = .sub x y ∨
    i = .shr x y ∨ i = .subn x y ∨ i = .shl x y) ∨
  ∃ x, i = .ldVxDt x ∨ i = .ldVxMem x

/-- The instruction is a conditional skip (R104). -/
def IsSkip (i : Instr) : Prop :=
  (∃ x kk, i = .seImm x kk ∨ i = .sneImm x kk) ∨ (∃ x y, i = .seReg x y ∨ i = .sneReg x y) ∨
    ∃ x, i = .skp x ∨ i = .sknp x

/-! ### The effects -/

/-- What an instruction can leave behind, by the state it was dispatched on. -/
inductive Effect (s : State) : Instr → State → Prop
  /-- The fault that is due, and nothing else (R193). -/
  | fault {i : Instr} {f : Fault} (due : faultOfInstr i s = some f) : Effect s i (raise f s)
  /-- Writes of its V registers. -/
  | regs {i : Instr} {v : Vector Byte 16} (kind : WritesRegsOnly i)
      (frame : ∀ r : Reg, v[r.val] ≠ s.reg r → Targets i r) : Effect s i { s with v := v }
  /-- A skip, taken or not. -/
  | skip {i : Instr} (taken : Bool) (kind : IsSkip i) : Effect s i (skipIf taken s)
  | jump (nnn : BitVec 12) : Effect s (.jp nnn) (jumpTo (addressOf nnn) s)
  | jumpV0 (nnn : BitVec 12) : Effect s (.jpV0 nnn) (jumpTo (addressOf nnn + wordOfReg s Reg.V0) s)
  | call (nnn : BitVec 12) (free : s.sp.val < 16) :
      Effect s (.call nnn) (jumpTo (addressOf nnn) (pushPc s free))
  | ret (occupied : 0 < s.sp.val) : Effect s .ret (popPc s occupied)
  /-- Stores within memory (R44). -/
  | store {i : Instr} (x : Reg) (kind : i = .ldB x ∨ i = .ldMemVx x) (bytes : List Byte)
      (bound : indexBase s + bytes.length ≤ 4096) :
      Effect s i { s with mem := s.mem.writeBytes (indexBase s) bytes }
  | index {i : Instr} (kind : (∃ nnn, i = .ldI nnn) ∨ ∃ x, i = .addI x ∨ i = .ldF x) (a : Word) :
      Effect s i { s with i := a }
  | clear : Effect s .cls { s with disp := Display.blank }
  | draw (x y : Reg) (n : Nat) (disp : Display) (flag : Byte) :
      Effect s (.drw x y n) ({ s with disp := disp }.setReg Reg.VF flag)
  | delay (x : Reg) : Effect s (.ldDtVx x) { s with dt := s.reg x }
  | sound (x : Reg) : Effect s (.ldStVx x) { s with st := s.reg x }
  | wait (x : Reg) : Effect s (.ldVxK x) { s with waiting := true, keyreg := x }

/-- One register write changes that register alone. -/
theorem Effect.of_setReg {s : State} {i : Instr} {x : Reg} {b : Byte} (kind : WritesRegsOnly i)
    (hx : Targets i x) : Effect s i (s.setReg x b) := by
  refine .regs kind fun r hr => ?_
  by_cases h : r = x
  · exact h ▸ hx
  · exact absurd (reg_setReg_other s b h) hr

/-- Two register writes change those two registers alone. -/
theorem Effect.of_setReg_setReg {s : State} {i : Instr} {x z : Reg} {a b : Byte} (kind : WritesRegsOnly i)
    (hx : Targets i x) (hz : Targets i z) : Effect s i ((s.setReg x a).setReg z b) := by
  refine .regs kind fun r hr => ?_
  by_cases h : r = z
  · exact h ▸ hz
  by_cases h' : r = x
  · exact h' ▸ hx
  · exact absurd ((reg_setReg_other _ b h).trans (reg_setReg_other s a h')) hr

/-- A block load changes V0..Vx alone. -/
theorem Effect.of_block_load (s : State) (x : Reg) : Effect s (.ldVxMem x) { s with v := regsFromMemory s x } := by
  refine .regs (by simp [WritesRegsOnly]) fun r hr => ?_
  by_cases h : r ≤ x
  · simp [Targets, h]
  · rw [regsFromMemory_get, if_neg h] at hr
    exact absurd rfl hr

/-- Every instruction answers a next state that is one of its effects. -/
theorem exec_effect (i : Instr) (s : State) : ∃ t, exec i s = .next t ∧ Effect s i t := by
  cases hf : faultOfInstr i s with
  | some f => exact ⟨_, exec_of_fault_due hf, .fault hf⟩
  | none =>
  cases i with
  | cls => exact ⟨_, rfl, .clear⟩
  | jp nnn => exact ⟨_, rfl, .jump nnn⟩
  | jpV0 nnn => exact ⟨_, rfl, .jumpV0 nnn⟩
  | ret =>
    have h : 0 < s.sp.val := by
      by_contra hc; simp [faultOfInstr, show s.sp.val = 0 by omega] at hf
    exact ⟨_, exec_ret_ok h, .ret h⟩
  | call nnn =>
    have h : s.sp.val < 16 := by
      have := s.sp.isLt
      by_contra hc; simp [faultOfInstr, show s.sp.val = 16 by omega] at hf
    exact ⟨_, exec_call_ok nnn h, .call nnn h⟩
  | seImm | sneImm | seReg | sneReg => exact ⟨_, rfl, .skip _ (by simp [IsSkip])⟩
  | skp x =>
    have h : (s.reg x).toNat ≤ 15 := by simpa [faultOfInstr] using hf
    exact ⟨_, exec_skp_ok x h, .skip _ (by simp [IsSkip])⟩
  | sknp x =>
    have h : (s.reg x).toNat ≤ 15 := by simpa [faultOfInstr] using hf
    exact ⟨_, exec_sknp_ok x h, .skip _ (by simp [IsSkip])⟩
  | ldImm | addImm | rnd | ldReg | or | and | xor | ldVxDt =>
    exact ⟨_, rfl, .of_setReg (by simp [WritesRegsOnly]) (by simp [Targets])⟩
  | addReg | sub | subn | shr | shl =>
    exact ⟨_, rfl, .of_setReg_setReg (by simp [WritesRegsOnly]) (by simp [Targets]) (by simp [Targets])⟩
  | ldVxMem x =>
    have h : s.i.toNat + x.val ≤ 0xFFF := by simpa [faultOfInstr] using hf
    exact ⟨_, exec_ldVxMem_ok x h, .of_block_load s x⟩
  | ldB x =>
    have h : s.i.toNat + 2 ≤ 0xFFF := by simpa [faultOfInstr] using hf
    exact ⟨_, exec_ldB_ok x h, .store x (.inl rfl) _ (by simp only [indexBase, bcdDigits_length]; omega)⟩
  | ldMemVx x =>
    have h : s.i.toNat + x.val ≤ 0xFFF := by simpa [faultOfInstr] using hf
    exact ⟨_, exec_ldMemVx_ok x h, .store x (.inr rfl) _ (by simp only [indexBase, blockOfRegs_length]; omega)⟩
  | ldI | addI | ldF => exact ⟨_, rfl, .index (by simp) _⟩
  | drw x y n =>
    have h : n = 0 ∨ s.i.toNat + n - 1 ≤ 0xFFF := by
      by_contra hc; simp only [faultOfInstr] at hf; rw [if_pos (by omega)] at hf; cases hf
    exact ⟨_, exec_drw_ok x y n h, .draw x y n _ _⟩
  | ldDtVx x => exact ⟨_, rfl, .delay x⟩
  | ldStVx x => exact ⟨_, rfl, .sound x⟩
  | ldVxK x => exact ⟨_, rfl, .wait x⟩

theorem effect_of_exec {i : Instr} {s t : State} (h : exec i s = .next t) : Effect s i t := by
  obtain ⟨u, hu, he⟩ := exec_effect i s
  rw [hu] at h
  cases h
  exact he

end Sys2Proof.Machine
end

section
/-! SUPPORT. Who writes what (10_state.md sections 1 and 4): the two frames over all instructions, read off the
effects. -/

namespace Sys2Proof.Machine

/-- A draw writes VF alone among the registers. -/
theorem draw_targets {s : State} {disp : Display} {flag : Byte} {x y r : Reg} {n : Nat}
    (h : ({ s with disp := disp }.setReg Reg.VF flag).reg r ≠ s.reg r) : Targets (.drw x y n) r := by
  by_cases hr : r = Reg.VF
  · exact .inl ⟨hr, .inr ⟨x, y, n, rfl⟩⟩
  · exact absurd (reg_setReg_other _ flag hr) h

/-- Settles O26: the effects that write registers carry the frame, and every other effect leaves the register
file as it was. -/
theorem registersAreWrittenOnlyByDestinations : Obligations.RegistersAreWrittenOnlyByDestinations := by
  intro i s t r h hr
  show Targets i r
  cases effect_of_exec h with
  | regs _ frame => exact frame r hr
  | draw x y n disp flag => exact draw_targets hr
  | fault | skip | jump | jumpV0 | call | ret | store | index | clear | delay | sound | wait =>
    exact absurd rfl hr

/-- Settles O25: each effect changes the fields it names and no other, so a changed field names its instruction. -/
theorem stateIsWrittenOnlyByNamedInstructions : Obligations.StateIsWrittenOnlyByNamedInstructions := by
  intro i s t h
  cases effect_of_exec h with
  | fault due => simp [due]
  | regs kind =>
    obtain ⟨x, kk, hi⟩ | ⟨x, y, hi⟩ | ⟨x, hi⟩ := kind
    · simpa using fun _ => .inl ⟨x, kk, hi⟩
    · simpa using fun _ => .inr (.inl ⟨x, y, hi⟩)
    · simpa using fun _ => .inr (.inr (.inr ⟨x, hi⟩))
  | store x kind => simpa using fun _ => ⟨x, kind⟩
  | index kind => simpa using fun _ => kind
  | draw x y n => simp
  | skip | jump | jumpV0 | call | ret | clear | delay | sound | wait => simp

end Sys2Proof.Machine
end

section
/-! SUPPORT. The fault that is due and the fault that is recorded (60_exceptions.md sections 2 to 4). -/

namespace Sys2Proof.Machine

/-! ### A tick that fetches an instruction -/

theorem FetchesInstr.executes {s : State} {i : Instr} (h : FetchesInstr s i) : Executes s := h.1.1

theorem FetchesInstr.fault_eq_none {s : State} {i : Instr} (h : FetchesInstr s i) : s.fault = none := h.1.1.1

theorem FetchesInstr.waiting_eq_false {s : State} {i : Instr} (h : FetchesInstr s i) : s.waiting = false :=
  h.1.1.2

/-! ### The fault that is due (R192, R194) -/

theorem faultDue_of_unfetchable {s : State} (h : s.pc.toNat + 1 > 0xFFF) : faultDue s = some .fetchBounds := by
  rw [faultDue, if_pos (by omega)]

theorem faultDue_of_instr {s : State} {i : Instr} (h : FetchesInstr s i) : faultDue s = faultOfInstr i s := by
  have hpc : ¬ s.pc.toNat ≥ 0xFFF := by
    have := h.1.2
    omega
  rw [faultDue, if_neg hpc, h.2]

theorem faultDue_of_unmatched {s : State} (h : Fetches s) (hd : decodeWord (wordAtPc s) = none) :
    faultDue s = none := by
  have hpc : ¬ s.pc.toNat ≥ 0xFFF := by
    have := h.2
    omega
  rw [faultDue, if_neg hpc, hd]

/-- The fault that is due depends on PC, memory, SP, I and the registers alone. -/
theorem faultDue_congr {s t : State} (hpc : t.pc = s.pc) (hmem : t.mem = s.mem) (hsp : t.sp = s.sp)
    (hi : t.i = s.i) (hv : t.v = s.v) : faultDue t = faultDue s := by
  simp only [faultDue, wordAtPc, hpc, hmem, faultOfInstr_congr hsp hi hv]

/-! ### The input gate -/

/-- A wait or resume tick changes V registers, `waiting`, `keys` and the ports alone. -/
theorem gateTick_frame (pick : Reg) (s : State) :
    gateTick pick s = { s with v := (gateTick pick s).v, waiting := (gateTick pick s).waiting } := by
  unfold gateTick
  cases reportedKey s.keys pick <;> rfl

theorem gateTick_fault (pick : Reg) (s : State) : (gateTick pick s).fault = s.fault := by
  rw [gateTick_frame]

/-! ### A faulting instruction (R193) -/

/-- An instruction that raises a fault puts PC back and changes nothing else. -/
theorem exec_faulting {i : Instr} {s t : State} {f : Fault} (h : exec i s = .next t) (hs : s.fault = none)
    (ht : t.fault = some f) : t = { s with pc := s.pc - 2, fault := some f } := by
  cases hdue : faultOfInstr i s with
  | some f' =>
    rw [exec_of_fault_due hdue] at h
    cases h
    cases ht
    rfl
  | none =>
    obtain ⟨u, hu, hfault, -⟩ := exec_of_no_fault_due hdue
    rw [hu] at h
    cases h
    rw [hfault, hs] at ht
    cases ht

/-- The state a faulting tick leaves: the inputs latched, the fault recorded, all else preserved. -/
def faultedState (f : Fault) (s : State) : State :=
  { latch (nextInput s.port) (openTick s) with fault := some f }

theorem raise_atDispatch (f : Fault) (s : State) : raise f (atDispatch s) = faultedState f s := by
  simp only [raise, takeFault, atDispatch_pc, add_two_sub_two]
  rfl

/-- A tick of an unfaulted core records nothing, none being due, or the fault that is due. -/
theorem step_fault_cases {s t : State} (h : step s = .next t) (hs : s.fault = none) :
    (t.fault = none ∧ (s.waiting = true ∨ s.waiting = false ∧ faultDue s = none)) ∨
    (∃ f, s.waiting = false ∧ faultDue s = some f ∧ t = faultedState f s) := by
  obtain ⟨f, hf, -⟩ | ⟨-, hw, rfl⟩ | ⟨hx, hpc, rfl⟩ | ⟨hx, hd, rfl⟩ | ⟨i, f, hx, hdue, rfl⟩ |
    ⟨i, u, hx, hdue, -, hu, rfl⟩ := step_cases h
  · rw [hs] at hf
    cases hf
  · exact .inl ⟨(gateTick_fault _ _).trans hs, .inl hw⟩
  · exact .inr ⟨_, hx.2, faultDue_of_unfetchable hpc, rfl⟩
  · exact .inl ⟨hs, .inr ⟨hx.1.2, faultDue_of_unmatched hx hd⟩⟩
  · exact .inr ⟨f, hx.waiting_eq_false, (faultDue_of_instr hx).trans hdue, raise_atDispatch f s⟩
  · exact .inl ⟨hu, .inr ⟨hx.waiting_eq_false, (faultDue_of_instr hx).trans hdue⟩⟩

/-- A fault recorded by a tick is the one due, in a core that does not wait. -/
theorem faulting_step {s t : State} {f : Fault} (h : step s = .next t) (hs : s.fault = none)
    (ht : t.fault = some f) : s.waiting = false ∧ faultDue s = some f ∧ t = faultedState f s := by
  obtain ⟨hnone, -⟩ | ⟨g, hw, hdue, rfl⟩ := step_fault_cases h hs
  · rw [hnone] at ht
    cases ht
  · cases ht
    exact ⟨hw, hdue, rfl⟩

/-- Settles O24: a tick that records a fault only latches its inputs beside it, and a faulting instruction puts
PC back. -/
theorem faultsArePrecise : Obligations.FaultsArePrecise := by
  refine ⟨fun s t f hs h ht => ?tick, fun i s t f hs h ht => exec_faulting h hs ht⟩
  case tick =>
    obtain ⟨-, -, rfl⟩ := faulting_step h hs ht
    exact ⟨rfl, rfl, rfl, rfl⟩

/-- Settles O23: whichever tick it is, what it records is what is due, a waiting core being due nothing. -/
theorem tickFaultsExactlyWhenDue : Obligations.TickFaultsExactlyWhenDue := by
  intro s hs
  obtain ⟨t, h⟩ := step_answers_next s
  refine ⟨t, h, ?_⟩
  obtain ⟨ht, hw | ⟨hw, hdue⟩⟩ | ⟨f, hw, hdue, rfl⟩ := step_fault_cases h hs
  · rw [ht, if_pos hw]
  · rw [ht, hdue, ite_self]
  · rw [hdue, if_neg (Bool.eq_false_iff.1 hw)]
    rfl

/-- Settles O22: a fault that was recorded stays with what explains it, and a new one is the one due in a state
that the faulting tick preserves. -/
theorem stepKeepsFaultsExplained : Obligations.StepKeepsFaultsExplained := by
  intro s t hs h f ht
  cases hfault : s.fault with
  | some g =>
    rw [step_of_fault hfault] at h
    cases h
    obtain ⟨hw, hdue⟩ := hs f ht
    exact ⟨hw, hdue⟩
  | none =>
    obtain ⟨hw, hdue, rfl⟩ := faulting_step h hfault ht
    exact ⟨hw, hdue⟩

end Sys2Proof.Machine
end

section
/-! SUPPORT. PC and the invariant of the machine (10_state.md section 3): where each effect leaves PC, and what
every step keeps. -/

namespace Sys2Proof.Machine

/-! ### Targets of jumps (R14, R103) -/

/-- The target of Bnnn is the sum over the integers: it cannot wrap. -/
theorem jumpV0_target_toNat (nnn : BitVec 12) (s : State) :
    (addressOf nnn + wordOfReg s Reg.V0).toNat = nnn.toNat + (s.reg Reg.V0).toNat := by
  have := nnn.isLt
  have := (s.reg Reg.V0).isLt
  rw [BitVec.toNat_add, addressOf_toNat, wordOfReg_toNat]
  omega

/-- Advancing PC does not wrap below the top of its range. -/
theorem add_two_toNat {a : Word} (h : a.toNat ≤ 0x1000) : (a + 2).toNat = a.toNat + 2 := by
  rw [BitVec.toNat_add, show BitVec.toNat (2 : Word) = 2 from rfl]
  omega

/-! ### A tick that runs an instruction to its end -/

/-- A tick that fetches an instruction and records no fault dispatches it and runs the timer step. -/
theorem completed_step {s t : State} {i : Instr} (hi : FetchesInstr s i) (h : step s = .next t)
    (ht : t.fault = none) :
    ∃ u, exec i (atDispatch s) = .next u ∧ u.fault = none ∧ t = timerStep u := by
  cases hdue : faultOfInstr i s with
  | some f =>
    rw [step_of_instr_fault hi hdue] at h
    cases h
    cases ht
  | none =>
    obtain ⟨u, hu, hfault, -⟩ := exec_atDispatch_of_no_fault_due hi hdue
    rw [step_of_instr_ok hi hu hfault] at h
    cases h
    exact ⟨u, hu, hfault, rfl⟩

/-! ### PC after an instruction -/

/-- The instruction goes on to the next one or skips it: it is no jump, call or return. -/
def Straight (i : Instr) : Prop := (∀ nnn, i ≠ .jp nnn ∧ i ≠ .call nnn ∧ i ≠ .jpV0 nnn) ∧ i ≠ .ret

theorem WritesRegsOnly.straight {i : Instr} (h : WritesRegsOnly i) : Straight i := by
  obtain ⟨x, kk, rfl | rfl | rfl⟩ | ⟨x, y, rfl | rfl | rfl | rfl | rfl | rfl | rfl | rfl | rfl⟩ |
    ⟨x, rfl | rfl⟩ := h <;> simp [Straight]

theorem IsSkip.straight {i : Instr} (h : IsSkip i) : Straight i := by
  obtain ⟨x, kk, rfl | rfl⟩ | ⟨x, y, rfl | rfl⟩ | ⟨x, rfl | rfl⟩ := h <;> simp [Straight]

/-- "How each instruction leaves it": PC after `i`, dispatched on `s`, has answered `t`. -/
def LeavesPc (i : Instr) (s t : State) : Prop :=
  (∀ nnn, i = .jp nnn ∨ i = .call nnn → t.pc.toNat = nnn.toNat) ∧
  (∀ nnn, i = .jpV0 nnn → t.pc.toNat = nnn.toNat + (s.reg Reg.V0).toNat) ∧
  (i = .ret → ∃ j : Fin 16, j.val + 1 = s.sp.val ∧ t.pc = s.stack[j.val]) ∧
  (Straight i → t.pc = s.pc ∨ t.pc = s.pc + 2 ∧ IsSkip i)

theorem LeavesPc.of_straight {i : Instr} {s t : State} (hi : Straight i)
    (hpc : t.pc = s.pc ∨ t.pc = s.pc + 2 ∧ IsSkip i) : LeavesPc i s t := by
  obtain ⟨hjumps, hret⟩ := hi
  refine ⟨?_, fun nnn h => absurd h (hjumps nnn).2.2, fun h => absurd h hret, fun _ => hpc⟩
  rintro nnn (h | h)
  · exact absurd h (hjumps nnn).1
  · exact absurd h (hjumps nnn).2.1

theorem Effect.leavesPc {i : Instr} {s t : State} (he : Effect s i t) (ht : t.fault = none) :
    LeavesPc i s t := by
  cases he with
  | fault due => cases ht
  | regs kind => exact .of_straight kind.straight (.inl rfl)
  | skip taken kind =>
    refine .of_straight kind.straight ?_
    cases taken
    · exact .inl rfl
    · exact .inr ⟨rfl, kind⟩
  | jump nnn => simp [LeavesPc, Straight]
  | call nnn => simp [LeavesPc, Straight]
  | jumpV0 nnn =>
    refine ⟨by simp, fun _ h => ?_, by simp, fun h => absurd rfl (h.1 nnn).2.2⟩
    cases h
    exact jumpV0_target_toNat nnn s
  | ret occupied =>
    refine ⟨by simp, by simp, fun _ => ?_, fun h => absurd rfl h.2⟩
    exact ⟨⟨s.sp.val - 1, by omega⟩, Nat.sub_add_cancel occupied, rfl⟩
  | store x kind =>
    refine .of_straight ?_ (.inl rfl)
    rcases kind with rfl | rfl <;> simp [Straight]
  | index kind =>
    refine .of_straight ?_ (.inl rfl)
    obtain ⟨nnn, rfl⟩ | ⟨x, rfl | rfl⟩ := kind <;> simp [Straight]
  | clear | draw | delay | sound | wait => exact .of_straight (by simp [Straight]) (.inl rfl)

/-- Settles O27: PC as the effect leaves it, dispatched with PC already advanced by 2. -/
theorem pcAfterEachInstruction : Obligations.PcAfterEachInstruction := by
  intro s t i hi h ht
  obtain ⟨u, hu, hfault, rfl⟩ := completed_step hi h ht
  obtain ⟨hjump, hjumpV0, hret, hstraight⟩ := (effect_of_exec hu).leavesPc hfault
  refine ⟨hjump, hjumpV0, hret, fun hj hr => ?_⟩
  obtain hpc | ⟨hpc, hskip⟩ := hstraight ⟨hj, hr⟩
  · exact .inl hpc
  · refine .inr ⟨hpc.trans ?_, hskip⟩
    rw [atDispatch_pc, BitVec.add_assoc]
    rfl

/-! ### The invariant -/

theorem Effect.mem_wf {i : Instr} {s t : State} (he : Effect s i t) (h : s.mem.wf) : t.mem.wf := by
  cases he with
  | store _ _ _ bound => exact writeBytes_wf h bound
  | fault | regs | skip | jump | jumpV0 | call | ret | index | clear | draw | delay | sound | wait => exact h

theorem Effect.stack_bound {i : Instr} {s t : State} (he : Effect s i t) (hpc : s.pc.toNat ≤ 0x1000)
    (h : ∀ j : Fin 16, s.stack[j.val].toNat ≤ 0x1000) (j : Fin 16) : t.stack[j.val].toNat ≤ 0x1000 := by
  cases he with
  | call nnn free =>
    simp only [jumpTo_stack, pushPc_stack, Vector.getElem_set]
    split
    · exact hpc
    · exact h j
  | fault | regs | skip | jump | jumpV0 | ret | store | index | clear | draw | delay | sound | wait =>
    exact h j

theorem Effect.pc_bound {i : Instr} {s t : State} (he : Effect s i t) (hpc : s.pc.toNat ≤ 0x1000)
    (h : ∀ j : Fin 16, s.stack[j.val].toNat ≤ 0x1000) (ht : t.fault = none) : t.pc.toNat ≤ 0x10FE := by
  cases he with
  | fault due => cases ht
  | skip taken =>
    cases taken
    · exact hpc.trans (by decide)
    · show (s.pc + 2).toNat ≤ 0x10FE
      rw [add_two_toNat hpc]
      omega
  | jump nnn | call nnn =>
    have := nnn.isLt
    rw [jumpTo_pc, addressOf_toNat]
    omega
  | jumpV0 nnn =>
    have := nnn.isLt
    have := (s.reg Reg.V0).isLt
    rw [jumpTo_pc, jumpV0_target_toNat]
    omega
  | ret occupied => exact (h ⟨s.sp.val - 1, by omega⟩).trans (by decide)
  | regs | store | index | clear | draw | delay | sound | wait => exact hpc.trans (by decide)

/-- A change to none of memory, PC, the stack, `waiting` and `fault` keeps the invariant. -/
theorem State.Inv.congr {s t : State} (h : s.Inv) (hmem : t.mem = s.mem) (hpc : t.pc = s.pc)
    (hstack : t.stack = s.stack) (hw : t.waiting = true → t.fault = none) : t.Inv where
  mem_wf := hmem ▸ h.mem_wf
  pc_bound := hpc ▸ h.pc_bound
  stack_bound := hstack ▸ h.stack_bound
  waiting_ok := hw

/-- PC at dispatch, past a word that could be fetched. -/
theorem Fetches.pc_atDispatch {s : State} (h : Fetches s) : (atDispatch s).pc.toNat ≤ 0x1000 := by
  have := h.2
  rw [atDispatch_pc, add_two_toNat (by omega)]
  omega

/-- Settles O21: the ticks that dispatch nothing keep every part of the invariant as it was, and an instruction
keeps each part by its effect. -/
theorem stepKeepsTheInvariant : Obligations.StepKeepsTheInvariant := by
  intro s t hs h
  obtain ⟨f, hf, rfl⟩ | ⟨hf, -, rfl⟩ | ⟨hx, -, rfl⟩ | ⟨hx, -, rfl⟩ | ⟨i, f, hi, -, rfl⟩ |
    ⟨i, u, hi, -, hu, hfault, rfl⟩ := step_cases h
  · exact hs.congr rfl rfl rfl hs.waiting_ok
  · rw [gateTick_frame]
    exact hs.congr rfl rfl rfl fun _ => hf
  · exact hs.congr rfl rfl rfl fun hw => absurd (hx.2.symm.trans hw) (by decide)
  · exact ⟨hs.mem_wf, hx.pc_atDispatch.trans (by decide), hs.stack_bound, fun _ => hx.1.1⟩
  · rw [raise_atDispatch]
    exact hs.congr rfl rfl rfl fun hw => absurd (hi.waiting_eq_false.symm.trans hw) (by decide)
  · have he := effect_of_exec hu
    have hpc := hi.1.pc_atDispatch
    exact ⟨he.mem_wf hs.mem_wf, he.pc_bound hpc hs.stack_bound hfault, he.stack_bound hpc hs.stack_bound,
      fun _ => hfault⟩

/-- The reset state meets the invariant. -/
theorem resetWith_inv (font : Vector Byte 80) : (State.resetWith font).Inv where
  mem_wf := reset_mem_wf font
  pc_bound := show (0x200 : Word).toNat ≤ 0x10FE by decide
  stack_bound j := by
    rw [resetWith_stack]
    decide
  waiting_ok _ := rfl

/-- Settles O20: the fields of the reset state one by one; no fault is recorded in it. -/
theorem resetMeetsTheInvariant : Obligations.ResetMeetsTheInvariant :=
  ⟨fun font => ⟨resetWith_inv font, fun _ h => nomatch h⟩, resetWith_inv Config.font⟩

end Sys2Proof.Machine
end

section
/-! SUPPORT. The tick (40_cycle.md): what each kind of tick latches, counts down and raises. -/

namespace Sys2Proof.Machine

/-! ### Timers and tone as numbers -/

theorem ne_zero_iff_toNat_pos {b : Byte} : b ≠ 0 ↔ b.toNat > 0 := by
  rw [gt_iff_lt, Nat.pos_iff_ne_zero, ne_eq, ne_eq, not_iff_not, ← BitVec.toNat_inj]
  rfl

theorem timerStep_tone (s : State) : (timerStep s).port.tone = decide (s.st.toNat > 0) :=
  decide_eq_decide.2 ne_zero_iff_toNat_pos

/-! ### Keys and ports after a tick -/

/-- No instruction writes `keys`. -/
theorem Effect.keys_eq {i : Instr} {s t : State} (he : Effect s i t) : t.keys = s.keys := by
  cases he <;> rfl

/-- No instruction writes the ports. -/
theorem Effect.port_eq {i : Instr} {s t : State} (he : Effect s i t) : t.port = s.port := by
  cases he <;> rfl

/-- A tick of an unfaulted core latches its inputs; beside them it moves only the outputs. -/
theorem step_latches {s t : State} (h : step s = .next t) (hs : s.fault = none) :
    t.keys = nextKeys s ∧
      t.port = { (atDispatch s).port with tone := t.port.tone, diag := t.port.diag } := by
  obtain ⟨f, hf, -⟩ | ⟨-, -, rfl⟩ | ⟨-, -, rfl⟩ | ⟨-, -, rfl⟩ | ⟨i, f, -, -, rfl⟩ |
    ⟨i, u, -, -, hu, -, rfl⟩ := step_cases h
  · rw [hs] at hf
    cases hf
  · rw [gateTick_frame]
    exact ⟨rfl, rfl⟩
  · exact ⟨rfl, rfl⟩
  · exact ⟨rfl, rfl⟩
  · exact ⟨rfl, rfl⟩
  · have he := effect_of_exec hu
    refine ⟨he.keys_eq, ?_⟩
    rw [timerStep_port, he.port_eq]

/-- Settles O18: the latched inputs are the head of the list, or the free ones of an empty list. -/
theorem tickTakesTheOldestInput : Obligations.TickTakesTheOldestInput := by
  refine ⟨fun s t inp rest hin hs h => ?_, fun s t hin hs h => ?_⟩
  all_goals
    obtain ⟨hkeys, hport⟩ := step_latches h hs
    rw [hport, hkeys]
    simp [nextKeys, nextInput, hin]

/-! ### Ticks that execute nothing -/

/-- Settles O13: a dead tick opens its ports and ends. -/
theorem deadTickChangesNothing : Obligations.DeadTickChangesNothing :=
  fun _ _ h => ⟨_, step_of_fault h, rfl, rfl, rfl⟩

/-- Settles O12: the fetch fails, and the tick records that beside the latched inputs. -/
theorem fetchBeyondMemoryFaults : Obligations.FetchBeyondMemoryFaults := by
  intro s hx hpc
  exact ⟨_, step_of_unfetchable hx (by omega), rfl, rfl, rfl, rfl, rfl, rfl⟩

/-- A wait tick latches its inputs and ends (R81). -/
theorem step_of_noKey {s : State} (h : s.fault = none) (hw : s.waiting = true) (hk : NoKey (nextKeys s)) :
    step s = .next (latch (nextInput s.port) (openTick s)) := by
  have hnone : reportedKey (latch (nextInput s.port) (openTick s)).keys (nextInput s.port).pick = none :=
    reportedKey_none.2 hk
  rw [step_of_waiting h hw, gateTick, hnone]

/-- Settles O14: no key is reported, so the gate changes nothing more. -/
theorem waitTickLatchesKeysOnly : Obligations.WaitTickLatchesKeysOnly :=
  fun _ h hw hk => ⟨_, step_of_noKey h hw hk, rfl, rfl, rfl, rfl⟩

/-- A resume tick stores the reported key (R82). -/
theorem step_of_reportedKey {s : State} {k : Reg} (h : s.fault = none) (hw : s.waiting = true)
    (hk : reportedKey (nextKeys s) (nextInput s.port).pick = some k) :
    step s = .next (resumeTick k (latch (nextInput s.port) (openTick s))) := by
  have hsome : reportedKey (latch (nextInput s.port) (openTick s)).keys (nextInput s.port).pick = some k := hk
  rw [step_of_waiting h hw, gateTick, hsome]

/-- With the preferred key up, the reported key is the lowest pressed one (log 2). -/
theorem reportedKey_le {keys : Vector Bool 16} {pick k j : Reg} (h : reportedKey keys pick = some k)
    (hpick : keys[pick.val] = false) (hj : keys[j.val] = true) : k ≤ j := by
  rw [reportedKey, if_neg (by simp [hpick]), List.find?_eq_some_iff_append] at h
  obtain ⟨-, below, above, hsplit, hbelow⟩ := h
  have hsorted := List.pairwise_lt_finRange 16
  have hmem : j ∈ below ++ k :: above := hsplit ▸ List.mem_finRange j
  rw [hsplit, List.pairwise_append, List.pairwise_cons] at hsorted
  obtain ⟨-, ⟨habove, -⟩, -⟩ := hsorted
  rcases List.mem_append.1 hmem with hin | hin
  · simpa [hj] using hbelow j hin
  · rcases List.mem_cons.1 hin with rfl | hin
    · exact le_rfl
    · exact (habove j hin).le

/-- Settles O15: the gate reports a pressed key, the preferred one or the lowest, and the resume tick writes that
one register. -/
theorem resumeTickStoresAPressedKey : Obligations.ResumeTickStoresAPressedKey := by
  intro s h hw hpressed
  cases hk : reportedKey (nextKeys s) (nextInput s.port).pick with
  | none => exact absurd (reportedKey_none.1 hk) hpressed
  | some k =>
    refine ⟨_, k, step_of_reportedKey h hw hk, reportedKey_pressed hk, fun hpick => ?preferred,
      fun hpick _ hj => reportedKey_le hk hpick hj, fun r => ?reg, rfl, rfl, rfl, rfl, rfl⟩
    case preferred => exact Option.some.inj (hk.symm.trans (reportedKey_pick hpick))
    case reg => exact reg_setReg (latch (nextInput s.port) (openTick s)) s.keyreg r _

/-! ### Ticks that dispatch -/

theorem closeTick_of_no_fault {t : State} (h : t.fault = none) : closeTick (.next t) = .next (timerStep t) := by
  simp [closeTick, h]

theorem closeTick_of_fault {t : State} {f : Fault} (h : t.fault = some f) : closeTick (.next t) = .next t := by
  simp [closeTick, h]

/-- Settles O9: the dispatch state field by field, and the close of the tick with and without a fault. -/
theorem stepRunsDecodedInstruction : Obligations.StepRunsDecodedInstruction := by
  intro s i hi
  refine ⟨rfl, rfl, rfl, rfl, fun u hu hfault => step_of_instr_ok hi hu hfault, fun u f hu hfault => ?_⟩
  rw [step_of_instr hi, hu, closeTick_of_fault hfault]

/-- Settles O10: the no-op raises `diag`, and the timer step follows. -/
theorem unmatchedWordIsANoOp : Obligations.UnmatchedWordIsANoOp := by
  intro s hx hd
  exact ⟨_, step_of_unmatched hx hd, rfl, countDown_toNat s.dt, countDown_toNat s.st, rfl, rfl,
    timerStep_tone _, rfl⟩

/-- Settles O11: the timer step closes a dispatch without a fault, and the dead, wait and resume ticks touch
neither timer nor `tone`. -/
theorem timerStepEndsEveryExecutingTick : Obligations.TimerStepEndsEveryExecutingTick := by
  refine ⟨fun s u hx hu hfault => ?_, fun s t hx h => ?_⟩
  · have hstep : step s = .next (timerStep u) := by
      rw [step_of_fetches hx, hu, closeTick_of_no_fault hfault]
    refine ⟨_, hstep, ?_, ?_, by simp only [timerStep_tone, decide_eq_true_eq], rfl⟩
    · rw [timerStep_dt, countDown_toNat]
      split <;> omega
    · rw [timerStep_st, countDown_toNat]
      split <;> omega
  · obtain ⟨f, -, rfl⟩ | ⟨-, -, rfl⟩ | ⟨hx', -⟩ | ⟨hx', -⟩ | ⟨i, f, hi, -⟩ | ⟨i, u, hi, -⟩ := step_cases h
    · exact ⟨rfl, rfl, rfl⟩
    · rw [gateTick_frame]
      exact ⟨rfl, rfl, rfl⟩
    · exact absurd hx' hx
    · exact absurd hx'.1 hx
    · exact absurd hi.executes hx
    · exact absurd hi.executes hx

/-- The rule of the outputs for one tick, from `s` to `t` (R88, R72, R89). -/
def OutputRule (s t : State) : Prop :=
  (t.port.tone = true → Executes s ∧ t.fault = none) ∧
  (t.port.diag ≠ none ↔ Fetches s ∧ decodeWord (wordAtPc s) = none)

/-- Low outputs follow the rule when no unmatched word was fetched. -/
theorem OutputRule.of_low {s t : State} (htone : t.port.tone = false) (hdiag : t.port.diag = none)
    (hd : Fetches s → decodeWord (wordAtPc s) ≠ none) : OutputRule s t :=
  ⟨fun h => (nomatch htone.symm.trans h), fun h => absurd hdiag h, fun ⟨hx, h⟩ => absurd h (hd hx)⟩

/-- Settles O17: the outputs are low when a tick opens; an instruction does not write them, the unmatched no-op
raises `diag`, and the timer step raises `tone`. -/
theorem outputsAreRaisedOnlyByExecutingTicks : Obligations.OutputsAreRaisedOnlyByExecutingTicks := by
  intro s t h
  show OutputRule s t
  obtain ⟨f, hf, rfl⟩ | ⟨-, hw, rfl⟩ | ⟨-, hpc, rfl⟩ | ⟨hx, hd, rfl⟩ | ⟨i, f, hi, -, rfl⟩ |
    ⟨i, u, hi, -, hu, hfault, rfl⟩ := step_cases h
  · exact .of_low rfl rfl fun hx => nomatch hf.symm.trans hx.1.1
  · rw [gateTick_frame]
    exact .of_low rfl rfl fun hx => nomatch hw.symm.trans hx.1.2
  · exact .of_low rfl rfl fun hx => absurd hx.2 (by omega)
  · exact ⟨fun _ => ⟨hx.1, hx.1.1⟩, fun _ => ⟨hx, hd⟩, fun _ hnone => (nomatch hnone)⟩
  · exact .of_low rfl rfl fun _ hd => nomatch hi.2.symm.trans hd
  · have hdiag : u.port.diag = none := congrArg Port.diag (effect_of_exec hu).port_eq
    exact ⟨fun _ => ⟨hi.executes, hfault⟩, fun h => absurd hdiag h, fun ⟨_, hd⟩ => nomatch hi.2.symm.trans hd⟩

/-! ### Placing a word (log 15, log 26) -/

theorem fetchPlace_bound (pc : Word) : (fetchPlace pc).toNat + 1 ≤ 0xFFF := by
  unfold fetchPlace
  split
  · decide
  · omega

theorem fetchPlace_of_le {pc : Word} (h : pc.toNat + 1 ≤ 0xFFF) : fetchPlace pc = pc :=
  if_neg (by omega)

/-- The word at PC is the one that was placed there. -/
theorem wordAtPc_withFetchWord (s : State) (nbits w : Nat) :
    wordAtPc (s.withFetchWord nbits w) = tableWord nbits w := by
  have hhigh := read_writeBytes_inside (bytesOfWord (tableWord nbits w)) s.mem (fetchPlace s.pc).toNat 0
    Nat.zero_lt_two
  have hlow := read_writeBytes_inside (bytesOfWord (tableWord nbits w)) s.mem (fetchPlace s.pc).toNat 1
    Nat.one_lt_two
  exact (congrArg₂ wordOfBytes hhigh hlow).trans (wordOfBytes_of_word _)

/-- Settles O19: the placed word is the one at PC, and only its two bytes are stored. -/
theorem placedWordIsFetchedNext : Obligations.PlacedWordIsFetchedNext := by
  refine ⟨fun s nbits w i h => ?fetched, fun s nbits w hx => ⟨fun a ha ha' => ?bytes, ?frame⟩⟩
  case fetched =>
    refine ⟨⟨⟨rfl, rfl⟩, fetchPlace_bound s.pc⟩, ?_⟩
    rw [wordAtPc_withFetchWord, ← decodeTableWord_eq, h]
  case bytes =>
    refine read_writeBytes_outside _ _ _ _ ?_
    rw [fetchPlace_of_le hx.2]
    simp only [bytesOfWord, List.length_cons, List.length_nil]
    omega
  case frame =>
    obtain ⟨⟨hfault, hw⟩, hpc⟩ := hx
    simp only [State.withFetchWord, placeWord, fetchPlace_of_le hpc, ← hfault, ← hw]

end Sys2Proof.Machine
end

section
/-! SUPPORT. Runs of ticks: the wait for a key, the decay of the timers and the parked state (40_cycle.md
sections 2 and 5, 45_input_timers.md, 70_reset_and_hazards.md section 5). -/

namespace Sys2Proof.Machine

/-! ### Waiting (R81) -/

/-- The key snapshot of the coming tick is the oldest of those lined up. -/
theorem nextKeys_mem {s : State} {n : Nat} (hn : n + 1 ≤ s.port.inputs.length) :
    ∃ inp ∈ s.port.inputs.take (n + 1), nextKeys s = inp.keys := by
  unfold nextKeys nextInput
  cases hin : s.port.inputs with
  | nil => simp [hin] at hn
  | cons inp rest => exact ⟨inp, by simp, rfl⟩

/-- Settles O16: each tick of the run is a wait tick, which takes the oldest snapshot and leaves the others. -/
theorem waitLastsWhileNoKeyIsPressed : Obligations.WaitLastsWhileNoKeyIsPressed := by
  intro n
  induction n with
  | zero => exact fun s _ hw _ _ => ⟨s, rfl, hw, rfl⟩
  | succ n ih =>
    intro s hs hw hn hkeys
    obtain ⟨inp, hinp, hnext⟩ := nextKeys_mem hn
    have hstep := step_of_noKey hs hw (hnext ▸ hkeys inp hinp)
    have hrest : ∀ inp ∈ s.port.inputs.tail.take n, NoKey inp.keys := by
      intro inp hin
      refine hkeys inp (List.mem_of_mem_tail ?_)
      rwa [← List.drop_one, List.drop_take, List.drop_one, Nat.add_sub_cancel]
    obtain ⟨t, ht, htw, hframe⟩ := ih (latch (nextInput s.port) (openTick s)) hs hw
      (by simp only [latch_port, openTick_port, opened_inputs, List.length_tail]; omega) hrest
    exact ⟨t, (run_succ n hstep).trans ht, htw, hframe⟩

/-! ### The decay of the timers (R176) -/

theorem Effect.dt_eq {i : Instr} {s t : State} (he : Effect s i t) (hi : ∀ x, i ≠ .ldDtVx x) : t.dt = s.dt := by
  cases he with
  | delay x => exact absurd rfl (hi x)
  | fault | regs | skip | jump | jumpV0 | call | ret | store | index | clear | draw | sound | wait => rfl

theorem Effect.st_eq {i : Instr} {s t : State} (he : Effect s i t) (hi : ∀ x, i ≠ .ldStVx x) : t.st = s.st := by
  cases he with
  | sound x => exact absurd rfl (hi x)
  | fault | regs | skip | jump | jumpV0 | call | ret | store | index | clear | draw | delay | wait => rfl

theorem not_completes_of_due {s : State} {f : Fault} (h : faultDue s = some f) : ¬ s.completes = true :=
  fun hc => nomatch h.symm.trans (completes_iff.1 hc).2

/-- A tick that completes ends with the timer step; any other leaves both timers. -/
theorem step_timers {s t : State} (h : step s = .next t) :
    (¬ s.completes = true ∧ t.dt = s.dt ∧ t.st = s.st) ∨
    (s.completes = true ∧ ∃ u, t = timerStep u ∧ (LeavesDt s → u.dt = s.dt) ∧ (LeavesSt s → u.st = s.st)) := by
  obtain ⟨f, hf, rfl⟩ | ⟨-, hw, rfl⟩ | ⟨-, hpc, rfl⟩ | ⟨hx, hd, rfl⟩ | ⟨i, f, hi, hdue, rfl⟩ |
    ⟨i, u, hi, hdue, hu, -, rfl⟩ := step_cases h
  · exact .inl ⟨fun hc => (nomatch hf.symm.trans (completes_iff.1 hc).1.1), rfl, rfl⟩
  · rw [gateTick_frame]
    exact .inl ⟨fun hc => (nomatch hw.symm.trans (completes_iff.1 hc).1.2), rfl, rfl⟩
  · exact .inl ⟨not_completes_of_due (faultDue_of_unfetchable hpc), rfl, rfl⟩
  · exact .inr ⟨completes_iff.2 ⟨hx.1, faultDue_of_unmatched hx hd⟩, _, rfl, fun _ => rfl, fun _ => rfl⟩
  · exact .inl ⟨not_completes_of_due ((faultDue_of_instr hi).trans hdue), rfl, rfl⟩
  · have he := effect_of_exec hu
    have hc : s.completes = true := completes_iff.2 ⟨hi.executes, (faultDue_of_instr hi).trans hdue⟩
    refine .inr ⟨hc, u, rfl, fun hl => ?_, fun hl => ?_⟩
    · exact he.dt_eq fun x hx => hl x (hx ▸ hi)
    · exact he.st_eq fun x hx => hl x (hx ▸ hi)

theorem step_dt {s t : State} (h : step s = .next t) (hl : LeavesDt s) :
    t.dt.toNat = s.dt.toNat - if s.completes then 1 else 0 := by
  obtain ⟨hc, hdt, -⟩ | ⟨hc, u, rfl, hdt, -⟩ := step_timers h
  · rw [if_neg hc, hdt, Nat.sub_zero]
  · rw [if_pos hc, timerStep_dt, countDown_toNat, hdt hl]

theorem step_st {s t : State} (h : step s = .next t) (hl : LeavesSt s) :
    t.st.toNat = s.st.toNat - if s.completes then 1 else 0 := by
  obtain ⟨hc, -, hst⟩ | ⟨hc, u, rfl, -, hst⟩ := step_timers h
  · rw [if_neg hc, hst, Nat.sub_zero]
  · rw [if_pos hc, timerStep_st, countDown_toNat, hst hl]

/-- A run of completing ticks alone counts every tick. -/
theorem completedTicks_of_all {n : Nat} {s : State} (h : HoldsFor (fun u => u.completes = true) n s) :
    completedTicks n s = n := by
  induction n generalizing s with
  | zero => rfl
  | succ n ih =>
    obtain ⟨t, ht⟩ := step_answers_next s
    obtain ⟨hs, hrest⟩ := (holdsFor_succ n ht).1 h
    rw [completedTicks_succ n ht, if_pos hs, ih hrest, Nat.add_comm]

/-- Settles O59: tick by tick, each completing one taking 1 from a timer that it does not write. -/
theorem timersDecayByExecutingTicks : Obligations.TimersDecayByExecutingTicks := by
  refine fun n s => ⟨?_, completedTicks_of_all⟩
  induction n generalizing s with
  | zero => exact ⟨s, rfl, fun _ => rfl, fun _ => rfl⟩
  | succ n ih =>
    obtain ⟨u, hu⟩ := step_answers_next s
    obtain ⟨t, ht, hdt, hst⟩ := ih u
    rw [run_succ n hu, holdsFor_succ n hu, holdsFor_succ n hu, completedTicks_succ n hu, Nat.sub_add_eq,
      Nat.sub_add_eq]
    refine ⟨t, ht, fun ⟨hl, hrest⟩ => ?_, fun ⟨hl, hrest⟩ => ?_⟩
    · rw [hdt hrest, step_dt hu hl]
    · rw [hst hrest, step_st hu hl]

/-! ### The parked state (R230) -/

/-- Being parked depends on PC, memory, `fault` and `waiting` alone. -/
theorem Parked.congr {s t : State} (h : Parked s) (hpc : t.pc = s.pc) (hmem : t.mem = s.mem)
    (hf : t.fault = s.fault) (hw : t.waiting = s.waiting) : Parked t := by
  simpa only [Parked, FetchesInstr, Fetches, Executes, wordAtPc, hpc, hmem, hf, hw] using h

/-- The tick of a parked state: its jump leads back to it, and the timer step runs. -/
theorem step_of_parked {s : State} (h : Parked s) : ∃ t, step s = .next t ∧ Parked t ∧
    t.dt.toNat = s.dt.toNat - 1 ∧ t.st.toNat = s.st.toNat - 1 ∧
    t = { s with dt := t.dt, st := t.st, keys := t.keys, port := t.port } := by
  have ⟨nnn, hi, hpc⟩ := h
  have htarget : addressOf nnn = s.pc := BitVec.eq_of_toNat_eq ((addressOf_toNat nnn).trans hpc.symm)
  have hexec : exec (.jp nnn) (atDispatch s) = .next (jumpTo s.pc (atDispatch s)) := by
    rw [exec_jp, htarget]
  refine ⟨_, step_of_instr_ok hi hexec hi.fault_eq_none, h.congr ?_ ?_ ?_ ?_, ?_, ?_, rfl⟩
  all_goals simp [countDown_toNat]

/-- Settles O60: the tick of a parked state, as often as the run has ticks. -/
theorem parkedStateStaysParked : Obligations.ParkedStateStaysParked := by
  intro n
  induction n with
  | zero => exact fun s h => ⟨s, rfl, h, rfl, rfl, rfl⟩
  | succ n ih =>
    intro s h
    obtain ⟨u, hu, hparked, hdt, hst, hframe⟩ := step_of_parked h
    obtain ⟨t, ht, htparked, htdt, htst, htframe⟩ := ih u hparked
    refine ⟨t, (run_succ n hu).trans ht, htparked, by omega, by omega, ?_⟩
    rw [hframe] at htframe
    exact htframe

end Sys2Proof.Machine
end

section
/-! SUPPORT. Main memory and the instructions that reach it (20_memory.md, 43_index_memory.md), and the host's Load
and debug port (70_reset_and_hazards.md section 2, 60_exceptions.md section 9). -/

namespace Sys2Proof.Machine

/-! ### Memory -/

/-- Settles O28: a read after a write, and the font table a write leaves. -/
theorem memoryReadsTheLastWrite : Obligations.MemoryReadsTheLastWrite :=
  fun m a k b => ⟨read_write m a k b, write_font m a b⟩

/-- Two canonical memories that read alike list the same cells. -/
theorem cells_eq_of_read_eq {m m' : Memory} (h : m.wf) (h' : m'.wf) (hfont : m.font = m'.font)
    (hread : ∀ a, m.read a = m'.read a) : m.cells = m'.cells := by
  have hmem : ∀ c : Host.Cell, c ∈ m.cells ↔ c ∈ m'.cells := by
    rintro ⟨k, b⟩
    rw [mem_cells_iff h, mem_cells_iff h', hread, Memory.unlisted, Memory.unlisted, hfont]
  refine List.Perm.eq_of_pairwise (le := fun c d : Host.Cell => c.1 < d.1) ?_ h.1 h'.1 ?_
  · exact fun c d _ _ hcd hdc => absurd hcd hdc.asymm
  · have hnodup : ∀ {m : Memory}, m.wf → m.cells.Nodup := fun hwf => hwf.1.imp fun hlt heq => by
      rw [heq] at hlt
      exact lt_irrefl _ hlt
    exact (List.perm_ext_iff_of_nodup (hnodup h) (hnodup h')).2 hmem

/-- Settles O29: writes keep the form, and in it what a memory reads determines what it lists. -/
theorem memoryFormIsCanonical : Obligations.MemoryFormIsCanonical := by
  refine ⟨fun m a b h ha => write_wf h ha, fun m m' h h' hfont hread => ?_⟩
  have hcells := cells_eq_of_read_eq h h' hfont hread
  cases m
  cases m'
  exact congrArg₂ Memory.mk hfont hcells

/-- Settles O30: the two bytes as one number, and the bound of a fetch. -/
theorem fetchIsBigEndianAndBounded : Obligations.FetchIsBigEndianAndBounded := by
  refine ⟨fun m a h => ?_, fun m a h => fetch_of_gt (by omega)⟩
  rw [fetch_of_le (by omega), wordOfBytes_eq_ofNat]

/-! ### Stores -/

/-- Byte `r` of a block store is the register's. -/
theorem read_block_store (s : State) {x r : Reg} (h : r ≤ x) :
    (s.mem.writeBytes (indexBase s) (blockOfRegs s x)).read (indexBase s + r.val) = s.reg r := by
  have hlen : r.val < (blockOfRegs s x).length := by
    rw [blockOfRegs_length]
    exact Nat.lt_succ_of_le h
  rw [read_writeBytes_inside _ _ _ _ hlen, blockOfRegs_get]

/-- Settles O49: the block store byte by byte. -/
theorem blockStoreCopiesRegisters : Obligations.BlockStoreCopiesRegisters := by
  intro x s hx
  refine ⟨_, exec_ldMemVx_ok x hx, fun r hr => read_block_store s hr, fun a ha => ?_,
    writeBytes_font _ _ _, rfl⟩
  exact read_writeBytes_outside _ _ _ _ (by rw [blockOfRegs_length]; omega)

/-- Settles O31: the fetch reads bytes 0 and 1 of the block. -/
theorem storeIsSeenByTheNextFetch : Obligations.StoreIsSeenByTheNextFetch := by
  intro x s hx hbound
  refine ⟨_, exec_ldMemVx_ok x hbound, ?_⟩
  have hV0 := read_block_store s (x := x) (r := 0) (Fin.zero_le x)
  have hV1 := read_block_store s (x := x) (r := 1) hx
  simp only [indexBase, Fin.val_zero, Nat.add_zero, Fin.val_one] at hV0 hV1
  rw [fetch_of_le (by omega)]
  simp only [indexBase, hV0, hV1, wordOfBytes_eq_ofNat]

/-- The digits of a byte as numbers. -/
theorem bcdDigits_toNat (b : Byte) :
    (bcdDigits b)[0].toNat = b.toNat / 100 ∧ (bcdDigits b)[1].toNat = b.toNat / 10 % 10 ∧
      (bcdDigits b)[2].toNat = b.toNat % 10 := by
  have := b.isLt
  simp only [bcdDigits, List.getElem_cons_zero, List.getElem_cons_succ, BitVec.toNat_ofNat]
  omega

/-- Settles O48: the three digits byte by byte. -/
theorem bcdStoresThreeDigits : Obligations.BcdStoresThreeDigits := by
  intro x s hbound
  have hread := read_writeBytes_inside (bcdDigits (s.reg x)) s.mem (indexBase s)
  obtain ⟨hundreds, tens, ones⟩ := bcdDigits_toNat (s.reg x)
  refine ⟨_, exec_ldB_ok x hbound, ?_, ?_, ?_, fun a ha => ?_, writeBytes_font _ _ _, rfl⟩
  · exact (congrArg BitVec.toNat (hread 0 (by simp))).trans hundreds
  · exact (congrArg BitVec.toNat (hread 1 (by simp))).trans tens
  · exact (congrArg BitVec.toNat (hread 2 (by simp))).trans ones
  · exact read_writeBytes_outside _ _ _ _ (by rw [bcdDigits_length]; omega)

/-! ### The block load -/

/-- Settles O50: the register file of the block load, register by register. -/
theorem blockLoadCopiesMemory : Obligations.BlockLoadCopiesMemory :=
  fun x s hx => ⟨_, exec_ldVxMem_ok x hx, regsFromMemory_get s x, rfl⟩

/-! ### Accesses past 0xFFF -/

/-- A raised fault puts PC back by 2 and records its code, and changes nothing else. -/
theorem raise_precise {i : Instr} {s : State} {f : Fault} (h : exec i s = .next (raise f s)) :
    ∃ t, exec i s = .next t ∧ t.pc + 2 = s.pc ∧ faultCode t.fault = faultCode (some f) ∧
      t = { s with pc := t.pc, fault := t.fault } :=
  ⟨_, h, BitVec.sub_add_cancel s.pc 2, rfl, rfl⟩

/-- Settles O51: the four checks, each failing before any effect. -/
theorem dataBeyondMemoryFaults : Obligations.DataBeyondMemoryFaults := by
  refine fun s => ⟨fun x h => ?_, fun x h => ?_, fun x h => ?_, fun x y n hn h => ?_⟩
  · exact raise_precise (exec_ldB_out x h)
  · exact raise_precise (exec_ldMemVx_out x h)
  · exact raise_precise (exec_ldVxMem_out x h)
  · exact raise_precise (exec_drw_out x y n hn h)

/-! ### Load and the debug port -/

theorem loadAllowed_iff {image : List Byte} {s : State} :
    loadAllowed image s = true ↔ image.length ≤ 3584 ∧ s.port.loadOpen = true := by
  simp [loadAllowed]

/-- A tick closes Load, in a faulted core too (R223). -/
theorem step_loadOpen {s t : State} (h : step s = .next t) : t.port.loadOpen = false := by
  cases hf : s.fault with
  | some f =>
    rw [step_of_fault hf] at h
    cases h
    rfl
  | none =>
    rw [(step_latches h hf).2]
    rfl

/-- Settles O2: a legal Load is one consecutive write at 0x200; the check that makes it legal; and what closes and
opens it. -/
theorem loadCopiesImageOnceBeforeTicks : Obligations.LoadCopiesImageOnceBeforeTicks := by
  refine ⟨fun image s hlen hopen => ?allowed, fun image s h => ?refused, fun s t h => step_loadOpen h, rfl,
    fun font s => ⟨_, hostEvent_reset font s, rfl⟩⟩
  case allowed =>
    exact ⟨_, hostEvent_load_allowed (loadAllowed_iff.2 ⟨hlen, hopen⟩),
      fun k hk => read_writeBytes_inside image s.mem 0x200 k hk,
      fun a ha => read_writeBytes_outside image s.mem 0x200 a ha, writeBytes_font image s.mem 0x200, rfl, rfl⟩
  case refused =>
    refine hostEvent_load_refused fun hallowed => ?_
    obtain ⟨hlen, hopen⟩ := loadAllowed_iff.1 hallowed
    rcases h with h | h
    · omega
    · exact nomatch h.symm.trans hopen

/-- Settles O3: a debug read answers the register or byte, a debug write is one write of it. -/
theorem debugPortReachesRegistersAndMemory : Obligations.DebugPortReachesRegistersAndMemory := by
  refine fun s => ⟨fun x => hostEvent_debugReadReg x s, fun a => hostEvent_debugReadMem a s,
    fun x b => ⟨_, hostEvent_debugWriteReg x b s, fun r => reg_setReg s x r b, setReg_frame s x b⟩,
    fun a b => ⟨_, hostEvent_debugWriteMem a b s, fun k => read_write s.mem a.val k b, rfl, rfl⟩⟩

end Sys2Proof.Machine
end

section
/-! SUPPORT. Control transfer with the stack, arithmetic with a flag, the index register, keys and timers, one
instruction at a time (41_control_flow.md, 42_load_alu.md, 43_index_memory.md, 45_input_timers.md). -/

namespace Sys2Proof.Machine

/-! ### Bnnn, CALL and RET -/

theorem exec_jpV0 (nnn : BitVec 12) (s : State) :
    exec (.jpV0 nnn) s = .next (jumpTo (addressOf nnn + wordOfReg s Reg.V0) s) := rfl

/-- Settles O33: row 21 of R66, and the sum that cannot wrap. -/
theorem indexedJumpAddsV0 : Obligations.IndexedJumpAddsV0 := by
  refine ⟨rowDecodesAs_of_mem (by simp [opcodeTable, opcodeRowsC]), fun nnn s => ?_⟩
  exact ⟨_, exec_jpV0 nnn s, jumpV0_target_toNat nnn s, rfl⟩

/-- Settles O35: the push writes the slot SP alone, and a full stack raises its fault. -/
theorem callPushesTheReturnAddress : Obligations.CallPushesTheReturnAddress := by
  refine ⟨fun nnn s h => ?free, fun nnn s h => raise_precise (exec_call_full nnn h)⟩
  case free =>
    refine ⟨_, exec_call_ok nnn h, fun j => ?_, rfl, addressOf_toNat nnn, rfl⟩
    simp only [jumpTo_stack, pushPc_stack, Vector.getElem_set, eq_comm]

/-- Settles O36: the pop reads the slot below SP, and an empty stack raises its fault. -/
theorem returnPopsIntoPc : Obligations.ReturnPopsIntoPc := by
  refine ⟨fun s h => ?occupied, fun s h => raise_precise (exec_ret_empty h)⟩
  case occupied =>
    refine ⟨_, exec_ret_ok h, Nat.sub_add_cancel h, fun j hj => ?_, rfl⟩
    have hj : j.val = s.sp.val - 1 := hj
    simp only [popPc_pc, hj]

/-- Settles O37: the pop undoes the push, slot and SP being as the push left them. -/
theorem returnUndoesCall : Obligations.ReturnUndoesCall := by
  intro nnn s t u h ht hstack hsp
  rw [exec_call_ok nnn h] at ht
  cases ht
  have hsp : u.sp.val = s.sp.val + 1 := congrArg Fin.val hsp
  refine ⟨_, exec_ret_ok (by omega), ?pc, ?sp, rfl⟩
  case pc => simp [hsp, hstack]
  case sp =>
    apply Fin.ext
    simp [hsp]

/-! ### Arithmetic with a flag -/

theorem exec_addReg (x y : Reg) (s : State) : exec (.addReg x y) s =
    .next ((s.setReg x (s.reg x + s.reg y)).setReg Reg.VF (carryFlag (s.reg x) (s.reg y))) := rfl

theorem exec_sub (x y : Reg) (s : State) : exec (.sub x y) s =
    .next ((s.setReg x (s.reg x - s.reg y)).setReg Reg.VF (noBorrowFlag (s.reg x) (s.reg y))) := rfl

theorem exec_subn (x y : Reg) (s : State) : exec (.subn x y) s =
    .next ((s.setReg x (s.reg y - s.reg x)).setReg Reg.VF (noBorrowFlag (s.reg y) (s.reg x))) := rfl

/-- Two register writes change those two registers alone. -/
theorem setReg_setReg_frame (s : State) (x z : Reg) (a b : Byte) :
    (s.setReg x a).setReg z b = { s with v := ((s.setReg x a).setReg z b).v } := rfl

theorem reg_setReg_setReg_other (s : State) {x z r : Reg} (a b : Byte) (hx : r ≠ x) (hz : r ≠ z) :
    ((s.setReg x a).setReg z b).reg r = s.reg r := by
  rw [reg_setReg_other _ b hz, reg_setReg_other s a hx]

/-- An instruction that writes Vx and then its flag into VF: VF holds the flag, Vx the value unless it is VF, and
nothing else changes. -/
theorem exec_writes_value_then_flag {i : Instr} {s : State} {x : Reg} {value flag : Byte}
    (h : exec i s = .next ((s.setReg x value).setReg Reg.VF flag)) :
    ∃ t, exec i s = .next t ∧ t.reg 15 = flag ∧ (x ≠ 15 → t.reg x = value) ∧
      (∀ r : Reg, r ≠ x → r ≠ 15 → t.reg r = s.reg r) ∧ t = { s with v := t.v } := by
  refine ⟨_, h, reg_setReg_same _ _ flag, fun hx => ?_, fun r => reg_setReg_setReg_other s _ _,
    setReg_setReg_frame s x _ _ _⟩
  rw [reg_setReg_other _ flag hx, reg_setReg_same]

/-- Settles O41: the sum, then the carry of the sum over the integers. -/
theorem addSetsCarry : Obligations.AddSetsCarry := by
  refine ⟨rowDecodesAs_of_mem (by simp [opcodeTable, opcodeRowsB]), fun x y s => ?_⟩
  obtain ⟨t, ht, hflag, hvalue, hother, hframe⟩ := exec_writes_value_then_flag (exec_addReg x y s)
  refine ⟨t, ht, ?_, fun hx => ?_, hother, hframe⟩
  · rw [hflag, carryFlag_toNat]
  · rw [hvalue hx, BitVec.toNat_add]

/-- A difference modulo 256. -/
theorem sub_toNat (a b : Byte) : (a - b).toNat = (a.toNat + 256 - b.toNat) % 256 := by
  have := b.isLt
  rw [BitVec.toNat_sub]
  omega

/-- Settles O42: the difference, then the flag that there is no borrow, for either order of the operands. -/
theorem subtractSetsNoBorrow : Obligations.SubtractSetsNoBorrow := by
  refine fun x y s => ⟨?sub, ?subn⟩
  case sub =>
    obtain ⟨t, ht, hflag, hvalue, hother, hframe⟩ := exec_writes_value_then_flag (exec_sub x y s)
    refine ⟨t, ht, ?_, fun hx => ?_, hother, hframe⟩
    · rw [hflag, noBorrowFlag_toNat]
    · rw [hvalue hx, sub_toNat]
  case subn =>
    obtain ⟨t, ht, hflag, hvalue, hother, hframe⟩ := exec_writes_value_then_flag (exec_subn x y s)
    refine ⟨t, ht, ?_, fun hx => ?_, hother, hframe⟩
    · rw [hflag, noBorrowFlag_toNat]
    · rw [hvalue hx, sub_toNat]

/-! ### Shifts -/

/-- The state of a shift that writes `flag` into VF and then shifts Vx, as it stands, by `op`. -/
def flagThenShift (op : Byte → Byte) (flag : Byte) (x : Reg) (s : State) : State :=
  (s.setReg Reg.VF flag).setReg x (op ((s.setReg Reg.VF flag).reg x))

theorem exec_shr (x y : Reg) (s : State) :
    exec (.shr x y) s = .next (flagThenShift (· >>> 1) (shiftedOutRight (s.reg x)) x s) := rfl

theorem exec_shl (x y : Reg) (s : State) :
    exec (.shl x y) s = .next (flagThenShift (· <<< 1) (shiftedOutLeft (s.reg x)) x s) := rfl

section
variable (op : Byte → Byte) (flag : Byte) (s : State)

theorem flagThenShift_value {x : Reg} (hx : x ≠ 15) : (flagThenShift op flag x s).reg x = op (s.reg x) := by
  rw [flagThenShift, reg_setReg_same, reg_setReg_other s flag hx]

theorem flagThenShift_flag {x : Reg} (hx : x ≠ 15) : (flagThenShift op flag x s).reg 15 = flag := by
  rw [flagThenShift, reg_setReg_other _ _ hx.symm, reg_setReg_same]

/-- With x = F it is the flag that is shifted (decision D12). -/
theorem flagThenShift_VF : (flagThenShift op flag 15 s).reg 15 = op flag := by
  rw [flagThenShift, reg_setReg_same, reg_setReg_same]

theorem flagThenShift_other {x r : Reg} (hx : r ≠ x) (h15 : r ≠ 15) :
    (flagThenShift op flag x s).reg r = s.reg r := reg_setReg_setReg_other s _ _ h15 hx

end

theorem shr_one_toNat (b : Byte) : (b >>> 1).toNat = b.toNat / 2 := by
  rw [BitVec.toNat_ushiftRight, Nat.shiftRight_eq_div_pow]

theorem shl_one_toNat (b : Byte) : (b <<< 1).toNat = b.toNat * 2 % 256 := by
  rw [BitVec.toNat_shiftLeft, Nat.shiftLeft_eq]

/-- Settles O43: the flag first, then the shift of Vx as it stands; the meaning does not name `y`. -/
theorem shiftsMoveTheLostBitToVf : Obligations.ShiftsMoveTheLostBitToVf := by
  refine fun x y s => ⟨?shr, ?shl⟩
  case shr =>
    refine ⟨_, exec_shr x y s, fun hx => ⟨?_, ?_⟩, ?_, fun r => flagThenShift_other _ _ s, rfl,
      fun y' => exec_shr x y' s⟩
    · rw [flagThenShift_value _ _ s hx, shr_one_toNat]
    · rw [flagThenShift_flag _ _ s hx, shiftedOutRight_toNat]
    · rintro rfl
      rw [flagThenShift_VF]
      apply BitVec.eq_of_toNat_eq
      rw [shr_one_toNat, shiftedOutRight_toNat]
      exact Nat.div_eq_of_lt (Nat.mod_lt _ Nat.zero_lt_two)
  case shl =>
    refine ⟨_, exec_shl x y s, fun hx => ⟨?_, ?_⟩, ?_, fun r => flagThenShift_other _ _ s, rfl,
      fun y' => exec_shl x y' s⟩
    · rw [flagThenShift_value _ _ s hx, shl_one_toNat]
    · rw [flagThenShift_flag _ _ s hx, shiftedOutLeft_toNat]
    · rintro rfl
      have := (s.reg 15).isLt
      rw [flagThenShift_VF, shl_one_toNat, shiftedOutLeft_toNat]
      split <;> omega

/-! ### Random -/

theorem exec_rnd (x : Reg) (kk : Byte) (s : State) :
    exec (.rnd x kk) s = .next (s.setReg x (s.port.rnd &&& kk)) := rfl

/-- A masked byte has no bit outside its mask. -/
theorem and_and_not (a b : Byte) : a &&& b &&& ~~~b = 0 := by
  rw [BitVec.and_assoc, BitVec.and_not_self]
  exact BitVec.and_zero

/-- Settles O44: one write of the masked random byte. -/
theorem randomIsMaskedByKk : Obligations.RandomIsMaskedByKk := by
  intro x kk s
  refine ⟨_, exec_rnd x kk s, fun r => reg_setReg s x r _, ?_, setReg_frame s x _⟩
  rw [reg_setReg_same, and_and_not]

/-! ### The index register -/

theorem exec_addI (x : Reg) (s : State) : exec (.addI x) s = .next { s with i := s.i + wordOfReg s x } := rfl

theorem exec_ldF (x : Reg) (s : State) : exec (.ldF x) s = .next { s with i := wordOfReg s x * 5 } := rfl

/-- Settles O46: word addition is addition modulo 65536. -/
theorem addIndexWrapsAt65536 : Obligations.AddIndexWrapsAt65536 := by
  refine fun x s => ⟨_, exec_addI x s, ?_, rfl⟩
  rw [BitVec.toNat_add, wordOfReg_toNat]

/-- Settles O47: row 31 of R66, and the product, which stays below 65536. -/
theorem fontAddressIsFiveTimesVx : Obligations.FontAddressIsFiveTimesVx := by
  refine ⟨rowDecodesAs_of_mem (by simp [opcodeTable, opcodeRowsC]), fun x s => ⟨_, exec_ldF x s, ?_, rfl⟩⟩
  have := (s.reg x).isLt
  rw [BitVec.toNat_mul, wordOfReg_toNat, show BitVec.toNat (5 : Word) = 5 from rfl]
  omega

/-! ### Key skips -/

theorem keyFlag_of_toNat {s : State} {b : Byte} {k : Reg} (h : b.toNat = k.val) : keyFlag s b = s.keys[k.val] := by
  simp only [keyFlag, h, Nat.mod_eq_of_lt k.isLt]

/-- Settles O55: the flag of the key decides each skip, and a register above 15 raises KeyIndex in both. -/
theorem keySkipsTestTheLatchedFlag : Obligations.KeySkipsTestTheLatchedFlag := by
  refine ⟨fun x s k hk => ?key, fun x s h => ?noKey⟩
  case key =>
    have h15 : (s.reg x).toNat ≤ 15 := by
      have := k.isLt
      omega
    rw [exec_skp_ok x h15, exec_sknp_ok x h15, keyFlag_of_toNat hk]
    cases s.keys[k.val] <;> exact ⟨rfl, rfl⟩
  case noKey =>
    obtain ⟨t, ht, hpc, hcode, hframe⟩ := raise_precise (exec_skp_out x h)
    exact ⟨t, ht, (exec_sknp_out x h).trans ((exec_skp_out x h).symm.trans ht), hpc, hcode, hframe⟩

/-! ### Timers and the key wait -/

theorem exec_ldDtVx (x : Reg) (s : State) : exec (.ldDtVx x) s = .next { s with dt := s.reg x } := rfl

theorem exec_ldStVx (x : Reg) (s : State) : exec (.ldStVx x) s = .next { s with st := s.reg x } := rfl

theorem exec_ldVxK (x : Reg) (s : State) : exec (.ldVxK x) s = .next { s with waiting := true, keyreg := x } := rfl

/-- Settles O57: the write of the timer, and the timer step of the same tick after it. -/
theorem writtenTimerCountsDownInItsOwnTick : Obligations.WrittenTimerCountsDownInItsOwnTick := by
  refine ⟨fun x s => ⟨exec_ldDtVx x s, exec_ldStVx x s⟩, fun x s h => ?dt, fun x s h => ?st⟩
  case dt =>
    exact ⟨_, step_of_instr_ok h (exec_ldDtVx x _) h.fault_eq_none, countDown_toNat (s.reg x),
      countDown_toNat s.st⟩
  case st =>
    refine ⟨_, step_of_instr_ok h (exec_ldStVx x _) h.fault_eq_none, countDown_toNat (s.reg x),
      countDown_toNat s.dt, ?_⟩
    rw [timerStep_tone, decide_eq_true_eq]
    rfl

/-- Settles O58: row 27 of R66, the entry into the wait, and the timer step of its tick. -/
theorem keyWaitIsEnteredNotStalled : Obligations.KeyWaitIsEnteredNotStalled := by
  refine ⟨rowDecodesAs_of_mem (by simp [opcodeTable, opcodeRowsC]), fun x s => exec_ldVxK x s, fun x s h => ?_⟩
  exact ⟨_, step_of_instr_ok h (exec_ldVxK x _) h.fault_eq_none, rfl, rfl, rfl, rfl, countDown_toNat s.dt,
    countDown_toNat s.st⟩

end Sys2Proof.Machine
end

section
/-! SUPPORT. The sprite draw of 44_display.md (rules R161 to R164): the cells a draw flips are the ones its sprite
covers, and so a second draw flips them back. -/

namespace Sys2Proof.Machine

/-! ### The cells under set bits -/

/-- A draw flips exactly the cells that its sprite covers. -/
theorem drawSprite_flipped (s : State) (x y : Reg) {n : Nat} (hn : n ≤ 32) :
    Flipped { disp := s.disp, hit := false } (drawSprite x y n s) (SpriteCovers s x y n) := by
  have hlen : (spriteRows s n).length = n := readBytes_length n s.mem (indexBase s)
  have hbyte : ∀ row (h : row < (spriteRows s n).length),
      (spriteRows s n)[row] = s.mem.read (s.i.toNat + row) := fun row h => readBytes_get n s.mem _ row (hlen ▸ h)
  refine (drawRows_flipped _ _ _ (hlen.trans_le hn) _).congr fun r c => ?_
  constructor
  · rintro ⟨row, col, hrow, hcol, hbit, rfl, rfl⟩
    exact ⟨row, col, hlen ▸ hrow, hcol, hbyte row hrow ▸ hbit, rfl, rfl⟩
  · rintro ⟨row, col, hrow, hcol, hbit, hr, hc⟩
    have hrow' : row < (spriteRows s n).length := hlen.symm ▸ hrow
    exact ⟨row, col, hrow', hcol, (hbyte row hrow').symm ▸ hbit, Fin.ext hr, Fin.ext hc⟩

/-- The cells a sprite covers depend on memory, I and its two coordinates alone. -/
theorem spriteCovers_congr {s t : State} {x y : Reg} (hmem : t.mem = s.mem) (hi : t.i = s.i)
    (hx : t.reg x = s.reg x) (hy : t.reg y = s.reg y) (n : Nat) :
    SpriteCovers t x y n = SpriteCovers s x y n := by
  funext r c
  simp only [SpriteCovers, hmem, hi, hx, hy]

theorem rows_le_of_wellFormed {x y : Reg} {n : Nat} (h : (Instr.drw x y n).wellFormed = true) : n ≤ 32 := by
  simp only [Instr.wellFormed, Instr.rowCountFits, decide_eq_true_eq] at h
  omega

/-! ### The statements -/

/-- Settles O53: the flipped cells are the covered ones, and the flag is the hit. -/
theorem drawIsAnExactXor : Obligations.DrawIsAnExactXor := by
  intro x y n s hwf hbound
  have hflip := drawSprite_flipped s x y (rows_le_of_wellFormed hwf)
  refine ⟨_, exec_drw_ok x y n hbound, fun r c => ⟨hflip.inside r c, hflip.outside r c⟩, ?hit, ?miss,
    fun r hr => reg_setReg_other _ _ hr, rfl⟩
  case hit =>
    rintro ⟨r, c, hon, hcover⟩
    rw [reg_setReg_same, hflip.hit.2 (.inr ⟨r, c, hcover, hon⟩)]
    rfl
  case miss =>
    intro hnone
    have hmiss : (drawSprite x y n s).hit = false := by
      rw [Bool.eq_false_iff, Ne, hflip.hit]
      rintro (h | ⟨r, c, hcover, hon⟩)
      · cases h
      · exact hnone r c hon hcover
    rw [reg_setReg_same, hmiss]
    rfl

/-- Settles O54: the second sprite covers the same cells, which are the first display's turned over. -/
theorem drawingTwiceRestoresTheDisplay : Obligations.DrawingTwiceRestoresTheDisplay := by
  intro x y n s t u hwf hbound hx hy ht hu
  obtain ⟨t', ht', hcell, -, -, hreg, hframe⟩ := drawIsAnExactXor x y n s hwf hbound
  rw [ht'] at ht
  cases ht
  have hmem : t.mem = s.mem := by rw [hframe]
  have hi : t.i = s.i := by rw [hframe]
  have hcovers := spriteCovers_congr hmem hi (hreg x hx) (hreg y hy) n
  obtain ⟨u', hu', hcell', hhit, hmiss, -, -⟩ := drawIsAnExactXor x y n t hwf (hi ▸ hbound)
  rw [hu'] at hu
  cases hu
  rw [hcovers] at hcell' hhit hmiss
  refine ⟨Display.ext_cell fun r c => ?_, fun h => ?_, fun ⟨r, c, hcover, hoff⟩ => ?_⟩
  · by_cases hcover : SpriteCovers s x y n r c
    · rw [(hcell' r c).1 hcover, (hcell r c).1 hcover, Bool.not_not]
    · rw [(hcell' r c).2 hcover, (hcell r c).2 hcover]
  · by_contra hnone
    have hzero := hmiss fun r c hon hcover => hnone ⟨r, c, hcover, by simpa [(hcell r c).1 hcover] using hon⟩
    rw [hzero] at h
    cases h
  · exact hhit ⟨r, c, by rw [(hcell r c).1 hcover, hoff]; rfl, hcover⟩

end Sys2Proof.Machine
end
